-- ==== Sys2Proof/Word.lean ====
section
/-! DEFINITION. The word types of the command port (10_state.md R33, 30_encoding.md R85) and the BitSequence type
(00_scope.md R13). Bit 0 of a word is its least significant bit (R12). -/

namespace Sys2Proof

/-- An operand A or a result: 64 bits (00_scope.md R11). -/
abbrev Word := BitVec 64

/-- An operand B: 16 bits (00_scope.md R11). -/
abbrev SideWord := BitVec 16

/-- An operation select: 4 bits (00_scope.md R11). -/
abbrev OpCode := BitVec 4

/-- A status code: 4 bits (60_exceptions.md R251). -/
abbrev Status := BitVec 4

/-- The packed command word CMD[83:0] (30_encoding.md R85). -/
abbrev CmdWord := BitVec 84

/-- A byte of a host's byte list (20_memory.md R62). -/
abbrev Byte := BitVec 8

/-- A finite list of bits, most significant first; element `true` is the bit 1 (00_scope.md R13). -/
abbrev BitSeq := List Bool

end Sys2Proof
end

