-- ==== Sys2Proof/Syntax.lean ====
section
/-! DEFINITION. The operations of the block: one constructor per row of the opcode table (30_encoding.md R86), holding
exactly the operand bits that R87 lists for the row. Ignored bits (R93) are not part of an instruction. -/

namespace Sys2Proof

/-- A request's operation with its operands (30_encoding.md R86, R87). -/
inductive Instr where
  /-- 0x0, fp32_decoder: the four input bytes (44_decoders.md R204). -/
  | dec32 (x : BitVec 32)
  /-- 0x1, fp64_decoder: the eight input bytes (44_decoders.md R205). -/
  | dec64 (x : BitVec 64)
  /-- 0x2, fp32_encoder: a native binary32 value (45_encoders.md R235). -/
  | enc32 (x : BitVec 32)
  /-- 0x3, fp64_encoder: a native binary64 value (45_encoders.md R236). -/
  | enc64 (x : BitVec 64)
  /-- 0x4: a binary32 exponent field (41_exponent_bias_converter.md R134). -/
  | expdec32 (E : BitVec 8)
  /-- 0x5: a binary64 exponent field (R135 there). -/
  | expdec64 (E : BitVec 11)
  /-- 0x6: an unsigned count (R136 there). -/
  | expenc32 (n : BitVec 16)
  /-- 0x7: an unsigned count (R137 there). -/
  | expenc64 (n : BitVec 16)
  /-- 0x8: a mantissa field and a signed exponent (42_mantissa_normalizer.md R170). -/
  | mandec32 (M : BitVec 23) (e : BitVec 16)
  /-- 0x9: a mantissa field and a signed exponent (R171 there). -/
  | mandec64 (M : BitVec 52) (e : BitVec 16)
  /-- 0xA: a 23-bit candidate with its guard, round and sticky bits (43_round_to_even_unit.md R190). -/
  | rnd32 (bits : BitVec 23) (g r st : Bool)
  /-- 0xB: a 52-bit candidate with its guard, round and sticky bits (R191 there). -/
  | rnd64 (bits : BitVec 52) (g r st : Bool)
  /-- 0xC to 0xF, reserved: the raw request (30_encoding.md R90, R94). -/
  | reserved (k : BitVec 4) (a : BitVec 64) (b : BitVec 16)
  deriving DecidableEq, Repr

end Sys2Proof
end

