-- ==== Sys2Proof/WellFormed.lean ====
section
/-! DEFINITION. Which instructions exist: a reserved request carries a reserved operation code (30_encoding.md R86, R90).
Every other operand is of the width its field has, so no other check is needed (R91: no operand value makes a command
word illegal). -/

namespace Sys2Proof

/-- The reserved operation codes are 0xC to 0xF (30_encoding.md R90). -/
def OpCode.isReserved (k : OpCode) : Bool := decide (12 ≤ k.toNat)

/-- An instruction of the table: a reserved request's code is a reserved one. -/
def Instr.wf : Instr → Bool
  | .dec32 _ | .dec64 _ | .enc32 _ | .enc64 _ => true
  | .expdec32 _ | .expdec64 _ | .expenc32 _ | .expenc64 _ => true
  | .mandec32 _ _ | .mandec64 _ _ => true
  | .rnd32 _ _ _ _ | .rnd64 _ _ _ _ => true
  | .reserved k _ _ => OpCode.isReserved k

end Sys2Proof
end

