-- ==== Sys2Proof/Decode.lean ====
section
/-! DEFINITION. The command word's encoding (30_encoding.md sections 2 and 3): its fields, the decoder, the encoder, and
the opcode table as a list of rows. -/

namespace Sys2Proof

/-! ## Fields -/

/-- `CMD[83:80] = req_op` (30_encoding.md R85). -/
def opOf (w : CmdWord) : OpCode := w.extractLsb' 80 4

/-- `CMD[79:16] = req_a` (30_encoding.md R85). -/
def aOf (w : CmdWord) : Word := w.extractLsb' 16 64

/-- `CMD[15:0] = req_b` (30_encoding.md R85). -/
def bOf (w : CmdWord) : SideWord := w.extractLsb' 0 16

/-- `CMD[83:0] = {req_op, req_a, req_b}` (30_encoding.md R85). -/
def packCmd (op : OpCode) (a : Word) (b : SideWord) : CmdWord := op ++ a ++ b

/-! ## Decoder -/

/-- The instruction a command word selects, by `CMD[83:80]` alone (30_encoding.md R86, R91), with the operand bits of
R87. It is total: every word selects exactly one row. -/
def decode (w : CmdWord) : Instr :=
  match (opOf w).toNat with
  | 0x0 => .dec32 ((aOf w).extractLsb' 0 32)
  | 0x1 => .dec64 (aOf w)
  | 0x2 => .enc32 ((aOf w).extractLsb' 0 32)
  | 0x3 => .enc64 (aOf w)
  | 0x4 => .expdec32 ((aOf w).extractLsb' 0 8)
  | 0x5 => .expdec64 ((aOf w).extractLsb' 0 11)
  | 0x6 => .expenc32 ((aOf w).extractLsb' 0 16)
  | 0x7 => .expenc64 ((aOf w).extractLsb' 0 16)
  | 0x8 => .mandec32 ((aOf w).extractLsb' 0 23) (bOf w)
  | 0x9 => .mandec64 ((aOf w).extractLsb' 0 52) (bOf w)
  | 0xA => .rnd32 ((aOf w).extractLsb' 0 23) ((bOf w).getLsbD 2) ((bOf w).getLsbD 1) ((bOf w).getLsbD 0)
  | 0xB => .rnd64 ((aOf w).extractLsb' 0 52) ((bOf w).getLsbD 2) ((bOf w).getLsbD 1) ((bOf w).getLsbD 0)
  | _ => .reserved (opOf w) (aOf w) (bOf w)

/-- Why a number is refused as a command. -/
inductive DecodeError where
  /-- The number has a bit above bit 83: only one command length exists, 84 bits (30_encoding.md R92). Safe: no such
  command can be presented on the port. -/
  | longerThanOneCommandWord
  deriving DecidableEq, Repr

/-- A number read as a command: the decoded word, or the name of the reason it is none (30_encoding.md R92;
DEDUCED, log 5). -/
def decodeCommand (n : Nat) : Except DecodeError Instr :=
  if n < 2 ^ 84 then .ok (decode (BitVec.ofNat 84 n)) else .error .longerThanOneCommandWord

/-- The host's view of the decoder: a table row's instruction, its bits numbered from bit 0 of the command word
(30_encoding.md R85), every bit above `nbits` zero. -/
def decodeTableWord (nbits w : Nat) : Option Instr :=
  match decodeCommand (w % 2 ^ nbits) with
  | .ok i => some i
  | .error _ => none

/-! ## Encoder -/

/-- `b = 4g + 2r + s` (30_encoding.md R94, R87). -/
def packGrs (g r st : Bool) : SideWord := BitVec.ofNat 16 (4 * g.toNat + 2 * r.toNat + st.toNat)

/-- The command word of an instruction, its ignored bits 0 (30_encoding.md R85 to R87, R93; log 14). -/
def encode : Instr → CmdWord
  | .dec32 x => packCmd 0x0 (x.setWidth 64) 0
  | .dec64 x => packCmd 0x1 x 0
  | .enc32 x => packCmd 0x2 (x.setWidth 64) 0
  | .enc64 x => packCmd 0x3 x 0
  | .expdec32 E => packCmd 0x4 (E.setWidth 64) 0
  | .expdec64 E => packCmd 0x5 (E.setWidth 64) 0
  | .expenc32 n => packCmd 0x6 (n.setWidth 64) 0
  | .expenc64 n => packCmd 0x7 (n.setWidth 64) 0
  | .mandec32 M e => packCmd 0x8 (M.setWidth 64) e
  | .mandec64 M e => packCmd 0x9 (M.setWidth 64) e
  | .rnd32 bits g r st => packCmd 0xA (bits.setWidth 64) (packGrs g r st)
  | .rnd64 bits g r st => packCmd 0xB (bits.setWidth 64) (packGrs g r st)
  | .reserved k a b => packCmd k a b

/-! ## The opcode table -/

/-- The rows of the opcode table, by name. -/
inductive Mnemonic where
  | DEC32 | DEC64 | ENC32 | ENC64 | EXPDEC32 | EXPDEC64 | EXPENC32 | EXPENC64
  | MANDEC32 | MANDEC64 | RND32 | RND64 | RESERVED
  deriving DecidableEq, Repr

/-- The row an instruction belongs to. -/
def Instr.mnemonic : Instr → Mnemonic
  | .dec32 _ => .DEC32
  | .dec64 _ => .DEC64
  | .enc32 _ => .ENC32
  | .enc64 _ => .ENC64
  | .expdec32 _ => .EXPDEC32
  | .expdec64 _ => .EXPDEC64
  | .expenc32 _ => .EXPENC32
  | .expenc64 _ => .EXPENC64
  | .mandec32 _ _ => .MANDEC32
  | .mandec64 _ _ => .MANDEC64
  | .rnd32 _ _ _ _ => .RND32
  | .rnd64 _ _ _ _ => .RND64
  | .reserved _ _ _ => .RESERVED

/-- One row of the opcode table: a word belongs to it when its bits under `mask` are those of `pattern`; `reads` are the
bits of the word that R87 lets the row's operation read, its operation code among them. -/
structure OpRow where
  mnemonic : Mnemonic
  pattern : CmdWord
  mask : CmdWord
  reads : CmdWord
  deriving DecidableEq, Repr

/-- The bits of the word that the row's instruction holds: those its operation reads. A reserved instruction reads no
operand bit and holds them all (log 14), so that decoding loses nothing of a raw request. -/
def OpRow.holds (row : OpRow) : CmdWord := if row.mnemonic = .RESERVED then BitVec.allOnes 84 else row.reads

/-- The row's operation code selects it. -/
def OpRow.selects (row : OpRow) (w : CmdWord) : Bool := (w &&& row.mask) == row.pattern

/-- spec/opcode_table.json (30_encoding.md R86), with the operand bits of R87 as command-word bits. -/
def opRows : List OpRow :=
  [ ⟨.DEC32,    0x000000000000000000000, 0xF00000000000000000000, 0xF00000000FFFFFFFF0000⟩,
    ⟨.DEC64,    0x100000000000000000000, 0xF00000000000000000000, 0xFFFFFFFFFFFFFFFFF0000⟩,
    ⟨.ENC32,    0x200000000000000000000, 0xF00000000000000000000, 0xF00000000FFFFFFFF0000⟩,
    ⟨.ENC64,    0x300000000000000000000, 0xF00000000000000000000, 0xFFFFFFFFFFFFFFFFF0000⟩,
    ⟨.EXPDEC32, 0x400000000000000000000, 0xF00000000000000000000, 0xF00000000000000FF0000⟩,
    ⟨.EXPDEC64, 0x500000000000000000000, 0xF00000000000000000000, 0xF00000000000007FF0000⟩,
    ⟨.EXPENC32, 0x600000000000000000000, 0xF00000000000000000000, 0xF000000000000FFFF0000⟩,
    ⟨.EXPENC64, 0x700000000000000000000, 0xF00000000000000000000, 0xF000000000000FFFF0000⟩,
    ⟨.MANDEC32, 0x800000000000000000000, 0xF00000000000000000000, 0xF00000000007FFFFFFFFF⟩,
    ⟨.MANDEC64, 0x900000000000000000000, 0xF00000000000000000000, 0xF000FFFFFFFFFFFFFFFFF⟩ ] ++
  [ ⟨.RND32,    0xA00000000000000000000, 0xF00000000000000000000, 0xF00000000007FFFFF0007⟩,
    ⟨.RND64,    0xB00000000000000000000, 0xF00000000000000000000, 0xF000FFFFFFFFFFFFF0007⟩,
    ⟨.RESERVED, 0xC00000000000000000000, 0xC00000000000000000000, 0xF00000000000000000000⟩ ]

end Sys2Proof
end

