-- ==== Sys2Proof/Machine/Bits.lean ====
section
/-! DEFINITION. BitSequences and their conversions (00_scope.md R13 to R15), and the byte order of host byte lists
(20_memory.md R62, R63). -/

namespace Sys2Proof.Machine

/-- `zeros(n)`: n zero bits (00_scope.md R13). -/
def zeros (n : Nat) : BitSeq := List.replicate n false

/-- `allOnes(S)`: every element is 1 (00_scope.md R13). -/
def allOnes (S : BitSeq) : Bool := S.all id

/-- `allZeros(S)`: every element is 0, and true of the empty sequence (00_scope.md R13). -/
def allZeros (S : BitSeq) : Bool := S.all not

/-- `orReduce(S)`: some element is 1 (00_scope.md R13). -/
def orReduce (S : BitSeq) : Bool := S.any id

/-- `S@[i..j)`: elements i up to but not including j (00_scope.md R13). -/
def slice (S : BitSeq) (i j : Nat) : BitSeq := (S.take j).drop i

/-- `binToNat(S)`: the sequence as an unsigned big-endian binary integer (00_scope.md R15). -/
def binToNat (S : BitSeq) : Nat := S.foldl (fun acc b => 2 * acc + b.toNat) 0

/-- `fixedBin_k(n)`: the k lowest bits of n, most significant first; for `n < 2^k`, the k-element sequence of value n
(00_scope.md R15). -/
def fixedBin : Nat → Nat → BitSeq
  | 0, _ => []
  | k + 1, n => n.testBit k :: fixedBin k n

/-- `seq_n(w)`: the bits of an n-bit word, index 0 being word bit n-1 (00_scope.md R14, 20_memory.md R61). -/
def seq {n : Nat} (w : BitVec n) : BitSeq := fixedBin n w.toNat

/-- `word_n(S)`: the n-bit word whose bit n-1-i is element i of S, for a sequence of n elements (00_scope.md R14,
20_memory.md R61). -/
def word (n : Nat) (S : BitSeq) : BitVec n := BitVec.ofNat n (binToNat S)

/-- The digits of I from the least significant on, by remainder and division by 2 while I is not 0
(42_mantissa_normalizer.md R160); the first argument bounds the loop. -/
def intBitsLoop : Nat → Nat → BitSeq
  | 0, _ => []
  | k + 1, I => if I = 0 then [] else decide (I % 2 = 1) :: intBitsLoop k (I / 2)

/-- `natToBin(n)`: the shortest sequence of value n, empty for 0 (00_scope.md R15), by the loop of
42_mantissa_normalizer.md R160, which runs once a bit (log 10). -/
def natToBin (n : Nat) : BitSeq := (intBitsLoop (n.log2 + 1) n).reverse

/-- `bitCount(n)`, the length of `natToBin(n)` (00_scope.md R15). -/
def bitCount (n : Nat) : Nat := (natToBin n).length

/-- A host's byte list as a port word: byte 0 is the most significant (20_memory.md R62). -/
def wordOfBytes (n : Nat) (bytes : List Byte) : BitVec n := word n (bytes.flatMap seq)

/-- A port word of k bytes as a host's byte list: the most significant byte first (20_memory.md R63). -/
def bytesOfWord {n : Nat} (k : Nat) (w : BitVec n) : List Byte :=
  (List.range k).map fun j => w.extractLsb' (n - 8 - 8 * j) 8

end Sys2Proof.Machine
end

