-- ==== Sys2Proof/Machine/Flags.lean ====
section
/-! DEFINITION. Status codes: the block's only condition code (10_state.md R36), the output signals of a unit (R39), and
the response that they make (30_encoding.md R88, R89; 60_exceptions.md R251, R253). -/

namespace Sys2Proof.Machine

/-- The errors of 60_exceptions.md R251. `invalidBitLength`, `parseError`, `invalidMSBMantissa` and `invalidLSBMantissa`
are kept so that every error the document names has a code; no request raises them (R251; log 8). -/
inductive Err where
  | invalidBitLength
  | exponentAllOnes
  | mantissaAllZeros
  | parseError
  | emptyMantissa
  | invalidMSBMantissa
  | invalidLSBMantissa
  | roundingOverflow
  | splitError
  | exponentOverflow
  | illegalOp
  deriving DecidableEq, Repr

/-- The status of success, `OK` (60_exceptions.md R251). -/
def statusOk : Status := 0

/-- `code(E)`, the status code of an error (60_exceptions.md R251). -/
def Err.code : Err → Status
  | .invalidBitLength => 1
  | .exponentAllOnes => 2
  | .mantissaAllZeros => 3
  | .parseError => 4
  | .emptyMantissa => 5
  | .invalidMSBMantissa => 6
  | .invalidLSBMantissa => 7
  | .roundingOverflow => 8
  | .splitError => 9
  | .exponentOverflow => 10
  | .illegalOp => 11

/-- A unit's output signals: its status and its values, which are `zero` when the status is an error (10_state.md R39,
60_exceptions.md R253). -/
def unitOut {α : Type} (zero : α) : Except Err α → Status × α
  | .ok v => (statusOk, v)
  | .error e => (e.code, zero)

/-- A response: the status and the 64-bit result, zero-extended on success and 0 on an error (the last two lines of
`CORE`, 30_encoding.md R88). -/
def respond {n : Nat} (r : Except Err (BitVec n)) : Status × Word :=
  unitOut 0 (r.map (BitVec.setWidth 64))

/-- A unit's status and value as a response: the value in the low bits of the result, every higher bit 0
(30_encoding.md R89). -/
def place {n : Nat} (out : Status × BitVec n) : Status × Word := (out.1, out.2.setWidth 64)

end Sys2Proof.Machine
end

