-- ==== Sys2Proof/Config.lean ====
section
/-! DEFINITION. The implementation parameters of the block (00_scope.md R10): what an implementation fixes when it is
built. The spec leaves no result open, so there is no free value here. -/

namespace Sys2Proof

/-- The open build parameters of 00_scope.md R10. They are elaboration-time constants of the block (10_state.md R37):
`State.cfg` carries them and no step changes them, so a statement about every state is a statement about every value of
them. DESIGN CHOICE, log 2. -/
structure Params where
  /-- FRAC_MARGIN_32: guard bits beyond 23 after which fraction expansion stops (92_eei_decisions.md D7). -/
  fracMargin32 : Nat
  /-- FRAC_MARGIN_64: the same beyond 52. -/
  fracMargin64 : Nat
  /-- INT_MAG_BITS_32: width of the binary32 encoder's integer-magnitude type (92_eei_decisions.md D8). -/
  intMagBits32 : Nat
  /-- INT_MAG_BITS_64: the same for the binary64 encoder. -/
  intMagBits64 : Nat
  deriving DecidableEq, Repr

/-- The default values of 00_scope.md R10. -/
def Params.default : Params :=
  { fracMargin32 := 3, fracMargin64 := 3, intMagBits32 := 128, intMagBits64 := 1024 }

/-- LATENCY at the value 10_state.md R35 and 70_reset_and_hazards.md R285 give it: a response stands in the registers one
edge after its request. DESIGN CHOICE, log 3: other values are left out, as R285 allows. -/
def Params.latency : Nat := 1

end Sys2Proof
end

