-- ==== Sys2Proof/Machine/Format.lean ====
section
/-! DEFINITION. The two floating-point formats, their constants (00_scope.md R9), and the build parameters of each
(R10). -/

namespace Sys2Proof.Machine

/-- The only formats: binary32 and binary64 (00_scope.md R3). -/
inductive Fmt where
  | b32
  | b64
  deriving DecidableEq, Repr

/-- N, the total width (00_scope.md R9). -/
abbrev Fmt.N : Fmt → Nat
  | .b32 => 32
  | .b64 => 64

/-- K, the exponent field's width (00_scope.md R9). -/
abbrev Fmt.K : Fmt → Nat
  | .b32 => 8
  | .b64 => 11

/-- W, the mantissa field's width (00_scope.md R9). -/
abbrev Fmt.W : Fmt → Nat
  | .b32 => 23
  | .b64 => 52

/-- BIAS, the exponent bias (00_scope.md R9). -/
abbrev Fmt.bias : Fmt → Nat
  | .b32 => 127
  | .b64 => 1023

/-- EMAX_FIELD, the all-ones exponent field's value, `2^K - 1` (00_scope.md R9). -/
abbrev Fmt.emaxField : Fmt → Nat
  | .b32 => 255
  | .b64 => 2047

/-- How many fraction bits hold every finite value of the format exactly: 149 or 1074 (10_state.md R40). The model writes
an exact dyadic value `v` of R16 as the natural number `v * 2^fracUnits`. DEDUCED, log 6. -/
abbrev Fmt.fracUnits (f : Fmt) : Nat := f.bias - 1 + f.W

/-- FRAC_MARGIN_f (00_scope.md R10). -/
def Fmt.fracMargin (f : Fmt) (p : Params) : Nat :=
  match f with
  | .b32 => p.fracMargin32
  | .b64 => p.fracMargin64

/-- INT_MAG_BITS_f (00_scope.md R10). -/
def Fmt.intMagBits (f : Fmt) (p : Params) : Nat :=
  match f with
  | .b32 => p.intMagBits32
  | .b64 => p.intMagBits64

/-- MB_MAX_f, the bound of the mantissa buffer's length (10_state.md R40). -/
def Fmt.mbMax (f : Fmt) (p : Params) : Nat := max (f.emaxField - 1 - f.bias) (f.W + f.fracMargin p + 1)

/-- The sign bit `x[N-1]` of a pattern (30_encoding.md R80, R81). -/
def Fmt.signOf (f : Fmt) (x : BitVec f.N) : Bool := x.getLsbD (f.N - 1)

/-- The exponent field `x[N-2:W]` of a pattern, as an unsigned number (30_encoding.md R80, R81). -/
def Fmt.expOf (f : Fmt) (x : BitVec f.N) : Nat := (x.extractLsb' f.W f.K).toNat

/-- The mantissa field `x[W-1:0]` of a pattern, as an unsigned number (30_encoding.md R80, R81). -/
def Fmt.manOf (f : Fmt) (x : BitVec f.N) : Nat := (x.extractLsb' 0 f.W).toNat

end Sys2Proof.Machine
end

