-- ==== Sys2Proof/Machine/FieldValidator.lean ====
section
/-! DEFINITION. The field extractor and validator that both decoders share (40_field_extractor_validator.md). -/

namespace Sys2Proof.Machine

/-- DecodedFields: the sign bit, which stands for +1 or -1 (40_field_extractor_validator.md R111), the exponent field and
the mantissa field. -/
structure Fields where
  sign : Bool
  expField : BitSeq
  mantissa : BitSeq
  deriving DecidableEq, Repr

/-- `Extract_f(S)`: the fields at their fixed offsets (40_field_extractor_validator.md R110). -/
def extract (f : Fmt) (S : BitSeq) : Fields :=
  { sign := S.headD false, expField := slice S 1 (1 + f.K), mantissa := slice S (1 + f.K) f.N }

/-- `Validate_f`: the checks in the document's order, the first that fails reported (40_field_extractor_validator.md
R112 to R115). -/
def validate (f : Fmt) (fs : Fields) : Except Err Unit :=
  if fs.expField.length ≠ f.K then .error .invalidBitLength
  else if allOnes fs.expField then .error .exponentAllOnes
  else if allZeros fs.mantissa then .error .mantissaAllZeros
  else .ok ()

/-- The unit's output values: `s`, `E` of K bits and `M` of W bits (10_state.md R39). -/
structure FieldSignals (f : Fmt) where
  s : Bool
  E : BitVec f.K
  M : BitVec f.W
  deriving DecidableEq, Repr

/-- The field extractor and validator as a unit: the fields of `x` as words, all of them 0 with an error status
(10_state.md R39). -/
def fieldUnit (f : Fmt) (x : BitVec f.N) : Status × FieldSignals f :=
  let fs := extract f (seq x)
  unitOut { s := false, E := 0, M := 0 }
    ((validate f fs).map fun _ => { s := fs.sign, E := word f.K fs.expField, M := word f.W fs.mantissa })

end Sys2Proof.Machine
end

