-- ==== Sys2Proof/Machine/State.lean ====
section
/-! DEFINITION. The state of the block and the reasons a step can stop (10_state.md R33, R34; 70_reset_and_hazards.md
R281). -/

namespace Sys2Proof.Machine

/-- There is no fault: the block never halts or hangs, and every request completes (60_exceptions.md R250, R257;
70_reset_and_hazards.md R286). An error is a status code, not a fault. DEDUCED, log 7. -/
inductive Fault where
  deriving DecidableEq, Repr

/-- The reasons an instruction is refused. -/
inductive Refusal where
  /-- The instruction has no meaning in the model yet. Raised by exec's refused arms only, of which there is none now.
  Safe. -/
  | notModelled (mnemonic : String)
  deriving DecidableEq, Repr

/-- The input signals the host drives around one rising edge of `clk` (10_state.md R33). -/
structure PortCycle where
  /-- Synchronous reset, active high. -/
  rst : Bool
  /-- A request is presented in this cycle. -/
  reqValid : Bool
  /-- Operation select. -/
  reqOp : OpCode
  /-- Operand A. -/
  reqA : Word
  /-- Operand B. -/
  reqB : SideWord
  deriving DecidableEq, Repr

/-- The state of one block. `rspValid`, `rspStatus` and `rspResult` are the block's only registers (10_state.md R34);
`cfg` holds its build parameters (R37; log 2); `port` holds the input signals the host drives at the coming rising edges,
the next edge first (R32, R33; log 1). -/
structure State where
  /-- Register `rsp_valid`. -/
  rspValid : Bool
  /-- Register `rsp_status`. -/
  rspStatus : Status
  /-- Register `rsp_result`. -/
  rspResult : Word
  /-- The build parameters (00_scope.md R10). -/
  cfg : Params
  /-- The host's coming input signals. -/
  port : List PortCycle
  deriving DecidableEq, Repr

/-- The state after reset (70_reset_and_hazards.md R281): all three registers 0, the parameters at their defaults
(00_scope.md R10), and no input announced by the host. -/
def State.reset : State :=
  { rspValid := false, rspStatus := 0, rspResult := 0, cfg := Params.default, port := [] }

end Sys2Proof.Machine
end

