-- ==== Sys2Proof/Machine/Operands.lean ====
section
/-! DEFINITION. Operand forms: how a request's signals are read (30_encoding.md R85, R87) and how a signed value is
carried (00_scope.md R12). -/

namespace Sys2Proof.Machine

/-- `signed(b[15:0])`: two's complement (30_encoding.md R87, R88). -/
def signed (b : SideWord) : Int := b.toInt

/-- `sext_64(v)`: the most significant bit copied into the upper bits (00_scope.md R12). -/
def sext64 {n : Nat} (v : BitVec n) : Word := v.signExtend 64

/-- The command word a cycle's request signals make (30_encoding.md R85). -/
def PortCycle.cmd (c : PortCycle) : CmdWord := packCmd c.reqOp c.reqA c.reqB

/-- A cycle with `rst = 0` that presents a command word as its request (10_state.md R41, 30_encoding.md R85). -/
def PortCycle.request (w : CmdWord) : PortCycle :=
  { rst := false, reqValid := true, reqOp := opOf w, reqA := aOf w, reqB := bOf w }

/-- A cycle with `req_valid = 0` and `rst = 0` (10_state.md R41); its other signals are not read. -/
def PortCycle.idle : PortCycle := { rst := false, reqValid := false, reqOp := 0, reqA := 0, reqB := 0 }

/-- A cycle with `rst = 1` (10_state.md R41); its other signals are not read (70_reset_and_hazards.md R280). -/
def PortCycle.reset : PortCycle := { rst := true, reqValid := false, reqOp := 0, reqA := 0, reqB := 0 }

end Sys2Proof.Machine
end

