-- ==== Sys2Proof/Machine/Ops.lean ====
section
/-! DEFINITION. The named operations over the state: reading the port's signals and writing the response registers
(10_state.md R35). Latching a response is the block's one shared operation in the place of taking an exception
(60_exceptions.md R256): a failing request's status is latched with its response, and nothing else changes. -/

namespace Sys2Proof.Machine

/-- An accepted request's edge: `rsp_valid <- 1; rsp_status <- st; rsp_result <- res` (10_state.md R35). -/
def State.latch (s : State) (rsp : Status × Word) : State :=
  { s with rspValid := true, rspStatus := rsp.1, rspResult := rsp.2 }

/-- An idle edge: `rsp_valid <- 0`, status and result kept (10_state.md R35). -/
def State.idle (s : State) : State := { s with rspValid := false }

/-- A reset edge: all three registers to 0 (10_state.md R35, 70_reset_and_hazards.md R280); the parameters are fixed at
build time (R281 there). -/
def State.clear (s : State) : State := { s with rspValid := false, rspStatus := 0, rspResult := 0 }

/-- The input signals at the next rising edge: the host's next announced cycle, and an idle cycle when it has announced
none. DESIGN CHOICE, log 1. -/
def State.signals (s : State) : PortCycle :=
  match s.port with
  | [] => .idle
  | c :: _ => c

/-- The signals of one cycle are gone when its edge has passed (10_state.md R41, log 1). -/
def State.advance (s : State) : State := { s with port := s.port.drop 1 }

/-- The host presents a request in the next cycle, before whatever it announced earlier (log 4). -/
def State.present (s : State) (w : CmdWord) : State := { s with port := .request w :: s.port }

end Sys2Proof.Machine
end

