-- ==== Sys2Proof/Machine/ExponentConverter.lean ====
section
/-! DEFINITION. exponent_bias_converter (41_exponent_bias_converter.md) and its operations EXPDEC32, EXPDEC64, EXPENC32
and EXPENC64. -/

namespace Sys2Proof.Machine

/-- `ExpDecode_f(E)`: field 0 is exponent 0, every other field has the bias subtracted
(41_exponent_bias_converter.md R130). It never fails (R131). -/
def expDecode (f : Fmt) (E : BitSeq) : Int :=
  let v := binToNat E
  if v = 0 then 0 else (v : Int) - f.bias

/-- The unit's decode output, a signed 16-bit signal (10_state.md R39, R40). -/
def expDecodeSignal (f : Fmt) (E : BitSeq) : BitVec 16 := BitVec.ofInt 16 (expDecode f E)

/-- The decode direction as a unit: it cannot fail and has no status output (10_state.md R39). -/
def expDecodeUnit (f : Fmt) (E : BitVec f.K) : BitVec 16 := expDecodeSignal f (seq E)

/-- `ExpEncode_f(n)`: the bias added, and `ExponentOverflow` when the sum does not fit the field
(41_exponent_bias_converter.md R132, R133). -/
def expEncode (f : Fmt) (n : Nat) : Except Err BitSeq :=
  let v := n + f.bias
  if v > f.emaxField then .error .exponentOverflow else .ok (fixedBin f.K v)

/-- The encode direction as a unit (10_state.md R39). -/
def expEncodeUnit (f : Fmt) (n : BitVec 16) : Status × BitVec f.K := unitOut 0 ((expEncode f n.toNat).map (word f.K))

/-- EXPDEC32 (41_exponent_bias_converter.md R134). The result is sign-extended to all 64 bits (DEDUCED, log 13). -/
def execExpdec32 (E : BitVec 8) (s : State) : Host.Outcome State Fault Refusal :=
  .next (s.latch (respond (.ok (sext64 (expDecodeUnit .b32 E)))))

/-- EXPDEC64 (41_exponent_bias_converter.md R135). -/
def execExpdec64 (E : BitVec 11) (s : State) : Host.Outcome State Fault Refusal :=
  .next (s.latch (respond (.ok (sext64 (expDecodeUnit .b64 E)))))

/-- EXPENC32 (41_exponent_bias_converter.md R136). -/
def execExpenc32 (n : BitVec 16) (s : State) : Host.Outcome State Fault Refusal :=
  .next (s.latch (place (expEncodeUnit .b32 n)))

/-- EXPENC64 (41_exponent_bias_converter.md R137). -/
def execExpenc64 (n : BitVec 16) (s : State) : Host.Outcome State Fault Refusal :=
  .next (s.latch (place (expEncodeUnit .b64 n)))

end Sys2Proof.Machine
end

