-- ==== Sys2Proof/Machine/MantissaNormalizer.lean ====
section
/-! DEFINITION. mantissa_normalizer (42_mantissa_normalizer.md): the decode direction with its operations MANDEC32 and
MANDEC64, and the encode direction, which only the encoders use. Exact dyadic values are carried as natural numbers: a
magnitude of section 1 in units of 2^-W, a fraction of section 2 in units of 2^-fracUnits (log 6). -/

namespace Sys2Proof.Machine

/-! ## Decode direction -/

/-- The sum over j of `lo@j * 2^-(j+1)` (42_mantissa_normalizer.md R150), in units of 2^-W where `W` is the first
argument: bit j counts `2^(W-1-j)` units. -/
def fracSum : Nat → BitSeq → Nat
  | _, [] => 0
  | u, b :: rest => b.toNat * 2 ^ (u - 1) + fracSum (u - 1) rest

/-- `ManValue_f(M, e)`: the magnitude in units of 2^-W, by relocating the radix point inside the mantissa field
(42_mantissa_normalizer.md R150): exactly 0 for the zero special case (R151), `EmptyMantissa` when `e` bits cannot be
sliced (R152). -/
def manValue (f : Fmt) (M : BitSeq) (e : Int) : Except Err Nat :=
  if allZeros M ∧ e = 0 then .ok 0
  else if e < 0 ∨ e > f.W then .error .emptyMantissa
  else
    let hi := slice M 0 e.toNat
    let lo := slice M e.toNat f.W
    let ip := binToNat (true :: hi)
    .ok (ip * 2 ^ f.W + fracSum f.W lo)

/-- `ManDecode_f(M, e)`: the magnitude as a pattern of the format with sign bit 0 (42_mantissa_normalizer.md R155). -/
def manDecode (f : Fmt) (M : BitSeq) (e : Int) : Except Err (BitVec f.N) :=
  match manValue f M e with
  | .error err => .error err
  | .ok mag => if mag = 0 then .ok 0 else .ok (word f.N (false :: (fixedBin f.K (e + f.bias).toNat ++ M)))

/-! ## Encode direction -/

/-- `IntBits(I)` (42_mantissa_normalizer.md R160): `natToBin(I)`, by repeated remainder and division by 2. -/
def intBits (I : Nat) : BitSeq := natToBin I

/-- The loop of `FracBits_f`: while the fraction is not 0 and the buffer may grow, double, take the integer part as the
next bit, keep the fraction (42_mantissa_normalizer.md R161). `D` is the number of fraction bits of the carried value, the
second argument how many bits may still be produced. -/
def fracBitsLoop (D : Nat) : Nat → Nat → BitSeq
  | 0, _ => []
  | left + 1, F =>
    if F = 0 then []
    else decide (1 ≤ 2 * F / 2 ^ D) :: fracBitsLoop D left (2 * F % 2 ^ D)

/-- `FracBits_f(F)`: the leading binary digits of the fraction, at most `W + FRAC_MARGIN_f + 1` of them
(42_mantissa_normalizer.md R161). -/
def fracBits (p : Params) (f : Fmt) (F : Nat) : BitSeq := fracBitsLoop f.fracUnits (f.W + f.fracMargin p + 1) F

/-- `ExpField_f(I)`: the biased bit count less one, or the field value 0 when the integer part is 0
(42_mantissa_normalizer.md R162). -/
def expField (f : Fmt) (I : Nat) : Except Err BitSeq :=
  if I ≠ 0 then expEncode f (bitCount I - 1) else .ok (zeros f.K)

/-- `Normalize_f(I, F)`: the exponent field and the mantissa buffer, the integer bits without their leading 1 followed by
the fraction bits (42_mantissa_normalizer.md R163). -/
def normalize (p : Params) (f : Fmt) (I F : Nat) : Except Err (BitSeq × BitSeq) :=
  let IB := intBits I
  let FB := fracBits p f F
  match expField f I with
  | .error err => .error err
  | .ok Ef => .ok (Ef, IB.drop 1 ++ FB)

/-! ## The unit's signals -/

/-- The decode direction as a unit: the magnitude pattern, sign 0 (10_state.md R39). -/
def manDecodeUnit (f : Fmt) (M : BitVec f.W) (e : BitVec 16) : Status × BitVec f.N :=
  unitOut 0 (manDecode f (seq M) (signed e))

/-- The output values of the encode direction: the exponent field and the mantissa buffer (10_state.md R39). -/
structure NormalizeSignals (f : Fmt) where
  E : BitVec f.K
  MB : BitSeq
  deriving DecidableEq, Repr

/-- The encode direction as a unit: `I` of INT_MAG_BITS_f bits, and the fraction `F` as the fixed-point number of
10_state.md R40 (R39 there). With an error status the field is 0 and the buffer empty (DESIGN CHOICE, log 17: R39 does not
say which BitSequence is 0). -/
def normalizeUnit (p : Params) (f : Fmt) (I : BitVec (f.intMagBits p)) (F : BitVec f.fracUnits) :
    Status × NormalizeSignals f :=
  unitOut { E := 0, MB := [] }
    ((normalize p f I.toNat F.toNat).map fun out => { E := word f.K out.1, MB := out.2 })

/-! ## Operations -/

/-- MANDEC32 (42_mantissa_normalizer.md R170). -/
def execMandec32 (M : BitVec 23) (e : BitVec 16) (s : State) : Host.Outcome State Fault Refusal :=
  .next (s.latch (place (manDecodeUnit .b32 M e)))

/-- MANDEC64 (42_mantissa_normalizer.md R171). -/
def execMandec64 (M : BitVec 52) (e : BitVec 16) (s : State) : Host.Outcome State Fault Refusal :=
  .next (s.latch (place (manDecodeUnit .b64 M e)))

end Sys2Proof.Machine
end

