-- ==== Sys2Proof/Machine/Decoders.lean ====
section
/-! DEFINITION. fp32_decoder and fp64_decoder (44_decoders.md) and their operations DEC32 and DEC64. -/

namespace Sys2Proof.Machine

/-- A pattern with bit N-1 replaced by the sign bit (44_decoders.md R201). -/
def withSign (f : Fmt) (sign : Bool) (y : BitVec f.N) : BitVec f.N := word f.N (sign :: (seq y).drop 1)

/-- `Decode_f(x)`: extract, validate, unbias the exponent, rebuild the magnitude, apply the sign; the first error is the
result (44_decoders.md R200). -/
def decodeFloat (f : Fmt) (x : BitVec f.N) : Except Err (BitVec f.N) :=
  let fs := extract f (seq x)
  match validate f fs with
  | .error err => .error err
  | .ok () =>
    match manDecode f fs.mantissa (expDecode f fs.expField) with
    | .error err => .error err
    | .ok mag => .ok (withSign f fs.sign mag)

/-- The decoder as a unit (10_state.md R39). -/
def decodeUnit (f : Fmt) (x : BitVec f.N) : Status × BitVec f.N := unitOut 0 (decodeFloat f x)

/-- DEC32 (44_decoders.md R204). -/
def execDec32 (x : BitVec 32) (s : State) : Host.Outcome State Fault Refusal :=
  .next (s.latch (place (decodeUnit .b32 x)))

/-- DEC64 (44_decoders.md R205). -/
def execDec64 (x : BitVec 64) (s : State) : Host.Outcome State Fault Refusal :=
  .next (s.latch (place (decodeUnit .b64 x)))

end Sys2Proof.Machine
end

