-- ==== Sys2Proof/Machine/RoundToEven.lean ====
section
/-! DEFINITION. round_to_even_unit (43_round_to_even_unit.md) and its operations RND32 and RND64. -/

namespace Sys2Proof.Machine

/-- `up = g and (r or s or lsb)` (43_round_to_even_unit.md R182). -/
def roundUp (g r st lsb : Bool) : Bool := g && (r || st || lsb)

/-- The carry scan, on the bits from the least significant on: each 1 flips to 0 until a 0 is found, which flips to 1;
`none` when every bit was 1 (43_round_to_even_unit.md R183, R185). -/
def carryScan : BitSeq → Option BitSeq
  | [] => none
  | true :: rest => (carryScan rest).map (false :: ·)
  | false :: rest => some (true :: rest)

/-- `RoundBits_f(bits, g, r, s)` (43_round_to_even_unit.md R183 to R185): the candidate unchanged, or incremented with
carry, or `RoundingOverflow`. The last retained bit is the candidate's last element. -/
def roundBits (bits : BitSeq) (g r st : Bool) : Except Err BitSeq :=
  if roundUp g r st (bits.getLastD false) then
    match carryScan bits.reverse with
    | none => .error .roundingOverflow
    | some B => .ok B.reverse
  else .ok bits

/-- `RoundBuffer_f(MB)`: the buffer split into candidate, guard, round and sticky bits, a missing bit counting as 0
(43_round_to_even_unit.md R180, R181, R186). -/
def roundBuffer (f : Fmt) (MB : BitSeq) : Except Err BitSeq :=
  roundBits (slice MB 0 f.W) (MB.getD f.W false) (MB.getD (f.W + 1) false) (orReduce (slice MB (f.W + 2) MB.length))

/-- The rounding unit on a candidate and its three bits (10_state.md R39). -/
def roundBitsUnit (f : Fmt) (bits : BitVec f.W) (g r st : Bool) : Status × BitVec f.W :=
  unitOut 0 ((roundBits (seq bits) g r st).map (word f.W))

/-- The rounding unit on a buffer of more than W bits (10_state.md R39; 43_round_to_even_unit.md R186). -/
def roundBufferUnit (f : Fmt) (MB : BitSeq) : Status × BitVec f.W := unitOut 0 ((roundBuffer f MB).map (word f.W))

/-- RND32 (43_round_to_even_unit.md R190). -/
def execRnd32 (bits : BitVec 23) (g r st : Bool) (s : State) : Host.Outcome State Fault Refusal :=
  .next (s.latch (place (roundBitsUnit .b32 bits g r st)))

/-- RND64 (43_round_to_even_unit.md R191). -/
def execRnd64 (bits : BitVec 52) (g r st : Bool) (s : State) : Host.Outcome State Fault Refusal :=
  .next (s.latch (place (roundBitsUnit .b64 bits g r st)))

end Sys2Proof.Machine
end

