-- ==== Sys2Proof/Machine/Encoders.lean ====
section
/-! DEFINITION. fp32_encoder and fp64_encoder (45_encoders.md) and their operations ENC32 and ENC64. -/

namespace Sys2Proof.Machine

/-- `|nativeValue_f(x)|` of a finite pattern (00_scope.md R20), exact, in units of 2^-fracUnits (log 6): `1.M * 2^(E-BIAS)`
for a normal pattern, `0.M * 2^(1-BIAS)` for `E = 0`. -/
def magnitudeUnits (f : Fmt) (x : BitVec f.N) : Nat :=
  let E := f.expOf x
  let M := f.manOf x
  if E = 0 then M else (2 ^ f.W + M) * 2 ^ (E - 1)

/-- The integer magnitude `I = floor(|nativeValue_f(x)|)` (45_encoders.md R223). -/
def splitInt (f : Fmt) (x : BitVec f.N) : Nat := magnitudeUnits f x / 2 ^ f.fracUnits

/-- The fractional magnitude `F = |nativeValue_f(x)| - I`, in units of 2^-fracUnits (45_encoders.md R223). -/
def splitFrac (f : Fmt) (x : BitVec f.N) : Nat := magnitudeUnits f x % 2 ^ f.fracUnits

/-- Step 6 of the pipeline: the buffer is rounded when it is longer than W, and used unchanged otherwise
(45_encoders.md R229). -/
def roundIfLong (f : Fmt) (MB : BitSeq) : Except Err BitSeq :=
  if MB.length > f.W then roundBuffer f MB else .ok MB

/-- Step 7 of the pipeline: sign, exponent field and mantissa field, right-padded with zeros to the full width
(45_encoders.md R230). -/
def assembleFloat (f : Fmt) (sign : Bool) (Ef Mf : BitSeq) : BitVec f.N :=
  let T := sign :: (Ef ++ Mf)
  word f.N (T ++ zeros (f.N - T.length))

/-- `Encode_f(x)`: the document's seven steps (45_encoders.md R221 to R231); the first error is the result. -/
def encodeFloat (p : Params) (f : Fmt) (x : BitVec f.N) : Except Err (BitVec f.N) :=
  if f.expOf x = f.emaxField then .error .exponentAllOnes
  else if splitInt f x ≥ 2 ^ f.intMagBits p then .error .splitError
  else
    match normalize p f (splitInt f x) (splitFrac f x) with
    | .error err => .error err
    | .ok (Ef, MB) =>
      match roundIfLong f MB with
      | .error err => .error err
      | .ok Mf => .ok (assembleFloat f (f.signOf x) Ef Mf)

/-- The encoder as a unit (10_state.md R39). -/
def encodeUnit (p : Params) (f : Fmt) (x : BitVec f.N) : Status × BitVec f.N := unitOut 0 (encodeFloat p f x)

/-- ENC32 (45_encoders.md R235). -/
def execEnc32 (x : BitVec 32) (s : State) : Host.Outcome State Fault Refusal :=
  .next (s.latch (place (encodeUnit s.cfg .b32 x)))

/-- ENC64 (45_encoders.md R236). -/
def execEnc64 (x : BitVec 64) (s : State) : Host.Outcome State Fault Refusal :=
  .next (s.latch (place (encodeUnit s.cfg .b64 x)))

end Sys2Proof.Machine
end

