-- ==== Sys2Proof/Machine/Reserved.lean ====
section
/-! DEFINITION. The reserved operations 0xC to 0xF (30_encoding.md R90). -/

namespace Sys2Proof.Machine

/-- A reserved request is accepted like any other and answers `IllegalOp` with result 0; it has no other effect
(30_encoding.md R90). Its operands are not read (R93). -/
def execReserved (_k : BitVec 4) (_a : BitVec 64) (_b : BitVec 16) (s : State) : Host.Outcome State Fault Refusal :=
  .next (s.latch (respond (n := 64) (.error .illegalOp)))

end Sys2Proof.Machine
end

