-- ==== Sys2Proof/Machine/Dispatch.lean ====
section
/-! DEFINITION. One arm per operation of the opcode table (30_encoding.md R86, R88). -/

namespace Sys2Proof.Machine

def exec (i : Instr) (s : State) : Host.Outcome State Fault Refusal :=
  match i with
  | .dec32 x => Sys2Proof.Machine.execDec32 x s
  | .dec64 x => Sys2Proof.Machine.execDec64 x s
  | .enc32 x => Sys2Proof.Machine.execEnc32 x s
  | .enc64 x => Sys2Proof.Machine.execEnc64 x s
  | .expdec32 E => Sys2Proof.Machine.execExpdec32 E s
  | .expdec64 E => Sys2Proof.Machine.execExpdec64 E s
  | .expenc32 n => Sys2Proof.Machine.execExpenc32 n s
  | .expenc64 n => Sys2Proof.Machine.execExpenc64 n s
  | .mandec32 M e => Sys2Proof.Machine.execMandec32 M e s
  | .mandec64 M e => Sys2Proof.Machine.execMandec64 M e s
  | .rnd32 bits g r st => Sys2Proof.Machine.execRnd32 bits g r st s
  | .rnd64 bits g r st => Sys2Proof.Machine.execRnd64 bits g r st s
  | .reserved k a b => Sys2Proof.Machine.execReserved k a b s

end Sys2Proof.Machine
end

