-- ==== Sys2Proof/Machine/Step.lean ====
section
/-! DEFINITION. One step: one rising edge of `clk` (10_state.md R35). -/

namespace Sys2Proof.Machine

/-- What an edge does to the registers, given the input signals around it: reset first, then a request, else idle
(10_state.md R35). -/
def edge (c : PortCycle) (s : State) : Host.Outcome State Fault Refusal :=
  if c.rst then .next s.clear
  else if c.reqValid then exec (decode c.cmd) s
  else .next s.idle

/-- One rising edge: the port's signals are read and the registers written (10_state.md R35). -/
def step (s : State) : Host.Outcome State Fault Refusal := edge s.signals s.advance

/-- The host presents the `nbits` low bits of `w`, numbered from bit 0 of the command word (30_encoding.md R85), as the
request of the next cycle, so that the next step runs it (log 4). -/
def State.withFetchWord (s : State) (nbits w : Nat) : State := s.present (BitVec.ofNat 84 (w % 2 ^ nbits))

end Sys2Proof.Machine
end

