-- ==== Sys2Proof/Machine/Assembler.lean ====
section
/-! DEFINITION. The assembler of programs (30_encoding.md R94 to R96): one line stands for one cycle of the command port.
It is a tool beside the block, which never sees text (R95). Text is a list of characters. -/

namespace Sys2Proof.Machine

/-! ## Lines -/

/-- One line of a program, its numbers read (30_encoding.md R94). -/
inductive Line where
  /-- `DEC32 x`, `DEC64 x`. -/
  | dec (f : Fmt) (x : Nat)
  /-- `ENC32 x`, `ENC64 x`. -/
  | enc (f : Fmt) (x : Nat)
  /-- `EXPDEC32 E`, `EXPDEC64 E`. -/
  | expdec (f : Fmt) (E : Nat)
  /-- `EXPENC32 n`, `EXPENC64 n`. -/
  | expenc (f : Fmt) (n : Nat)
  /-- `MANDEC32 M, e`, `MANDEC64 M, e`. -/
  | mandec (f : Fmt) (M : Nat) (e : Int)
  /-- `RND32 bits, g, r, s`, `RND64 bits, g, r, s`. -/
  | rnd (f : Fmt) (bits : Nat) (g r st : Bool)
  /-- `.op k, a, b`: a raw request. -/
  | raw (k a b : Nat)
  /-- The directive `WAIT`: one idle cycle. -/
  | wait
  /-- The directive `RESET`: one cycle with `rst = 1`. -/
  | reset
  deriving DecidableEq, Repr

/-- The operation code of a mnemonic that exists once per format: the binary32 one is even, the binary64 one follows it
(30_encoding.md R86). -/
def fmtCode (f : Fmt) (base : OpCode) : OpCode :=
  match f with
  | .b32 => base
  | .b64 => base + 1

/-- A number as an operand A; a number that does not fit the 64 bits has no operand (log 11). -/
def operandA (n : Nat) : Option Word := if n < 2 ^ 64 then some (BitVec.ofNat 64 n) else none

/-- The cycle a line assembles to (30_encoding.md R94, R85); `none` where a number does not fit its operand (log 11). -/
def assemble : Line → Option PortCycle
  | .dec f x => (operandA x).map fun a => .request (packCmd (fmtCode f 0x0) a 0)
  | .enc f x => (operandA x).map fun a => .request (packCmd (fmtCode f 0x2) a 0)
  | .expdec f E => (operandA E).map fun a => .request (packCmd (fmtCode f 0x4) a 0)
  | .expenc f n => (operandA n).map fun a => .request (packCmd (fmtCode f 0x6) a 0)
  | .mandec f M e => (operandA M).map fun a => .request (packCmd (fmtCode f 0x8) a (BitVec.ofInt 16 e))
  | .rnd f bits g r st => (operandA bits).map fun a => .request (packCmd (fmtCode f 0xA) a (packGrs g r st))
  | .raw k a b =>
    if k < 2 ^ 4 ∧ b < 2 ^ 16 then
      (operandA a).map fun w => .request (packCmd (BitVec.ofNat 4 k) w (BitVec.ofNat 16 b))
    else none
  | .wait => some .idle
  | .reset => some .reset

/-! ## Decimal literals of native floats -/

/-- A quotient of natural numbers rounded to the nearest integer, ties to even. -/
def nearestNat (num den : Nat) : Nat :=
  let q := num / den
  let rem := num % den
  if den < 2 * rem ∨ (2 * rem = den ∧ q % 2 = 1) then q + 1 else q

/-- The pattern of the format nearest to `num / den`, ties to even, without its sign (30_encoding.md R95;
93_implementation_defined.md G3): the quotient is rounded at the spacing of its own binade, or of the subnormal numbers,
and a carry out of the mantissa goes into the exponent field. `none` when that is no finite pattern (log 11). -/
def nearestPattern (f : Fmt) (num den : Nat) : Option Nat :=
  let units := num * 2 ^ f.fracUnits / den
  let shift := units.log2 - f.W
  let pattern := shift * 2 ^ f.W + nearestNat (num * 2 ^ f.fracUnits) (den * 2 ^ shift)
  if pattern < f.emaxField * 2 ^ f.W then some pattern else none

/-- The same with a sign bit. A literal with a minus sign keeps it where its nearest value is 0, and one without has the
sign bit 0 there: both zero patterns are equally near, and R95 does not choose (DESIGN CHOICE, log 16). -/
def signedPattern (f : Fmt) (neg : Bool) (num den : Nat) : Option Nat :=
  (nearestPattern f num den).map fun y => neg.toNat * 2 ^ (f.N - 1) + y

/-! ## Text -/

/-- The text without the blanks at its two ends. -/
def trim (s : List Char) : List Char :=
  let front := s.dropWhile (· == ' ')
  (front.reverse.dropWhile (· == ' ')).reverse

/-- The parts of a text between commas. -/
def splitCommas : List Char → List (List Char)
  | [] => [[]]
  | c :: rest =>
    match splitCommas rest with
    | [] => [[c]]
    | part :: parts => if c = ',' then [] :: part :: parts else (c :: part) :: parts

/-- The value of a digit, upper or lower case. -/
def digitValue (c : Char) : Option Nat :=
  let n := c.toNat
  if 48 ≤ n ∧ n ≤ 57 then some (n - 48)
  else if 65 ≤ n ∧ n ≤ 70 then some (n - 55)
  else if 97 ≤ n ∧ n ≤ 102 then some (n - 87)
  else none

/-- Digits of a base read on from a value. -/
def readDigits (base : Nat) : Nat → List Char → Option Nat
  | acc, [] => some acc
  | acc, c :: rest =>
    match digitValue c with
    | some d => if d < base then readDigits base (acc * base + d) rest else none
    | none => none

/-- A number's digits: at least one. -/
def readNumber (base : Nat) (s : List Char) : Option Nat := if s.isEmpty then none else readDigits base 0 s

/-- Numbers are hex with `0x`, binary with `0b`, or decimal (30_encoding.md R94). -/
def readNat : List Char → Option Nat
  | '0' :: 'x' :: digits => readNumber 16 digits
  | '0' :: 'b' :: digits => readNumber 2 digits
  | digits => readNumber 10 digits

/-- A number with an optional minus sign, as the exponent operand of `MANDEC32 0x2A4000, -1` (30_encoding.md R96). -/
def readInt : List Char → Option Int
  | '-' :: digits => (readNat digits).map fun n => -(n : Int)
  | digits => (readNat digits).map Int.ofNat

/-- A rounding bit: 0 or 1. -/
def readBit (s : List Char) : Option Bool :=
  match readNat s with
  | some 0 => some false
  | some 1 => some true
  | _ => none

/-- A decimal literal without a sign, as a numerator and a denominator: digits, an optional point with digits, an
optional exponent `e` with a sign. -/
def readDecimal (s : List Char) : Option (Nat × Nat) :=
  let mantissa := s.takeWhile (· != 'e')
  let whole := mantissa.takeWhile (· != '.')
  let frac := (mantissa.dropWhile (· != '.')).drop 1
  let exponent :=
    match (s.dropWhile (· != 'e')).drop 1 with
    | [] => if s.contains 'e' then none else some 0
    | '-' :: digits => (readNumber 10 digits).map fun n => -(n : Int)
    | digits => (readNumber 10 digits).map Int.ofNat
  match readNumber 10 (whole ++ frac), exponent with
  | some n, some e => some (n * 10 ^ e.toNat, 10 ^ frac.length * 10 ^ (-e).toNat)
  | _, _ => none

/-- The inside of `f32(d)` or `f64(d)`. -/
def readFloat (f : Fmt) (s : List Char) : Option Nat :=
  match s.reverse with
  | ')' :: rest =>
    match rest.reverse with
    | '-' :: d => (readDecimal d).bind fun q => signedPattern f true q.1 q.2
    | d => (readDecimal d).bind fun q => signedPattern f false q.1 q.2
  | _ => none

/-- The operand `x` of a decoder or an encoder: a number, or a pseudo-operand `f32(d)` or `f64(d)` (30_encoding.md
R95). -/
def readPattern : List Char → Option Nat
  | 'f' :: '3' :: '2' :: '(' :: rest => readFloat .b32 rest
  | 'f' :: '6' :: '4' :: '(' :: rest => readFloat .b64 rest
  | s => readNat s

/-- A mnemonic's format, and its name without the format (30_encoding.md R86). -/
def splitMnemonic (s : List Char) : Option (List Char × Fmt) :=
  match s.reverse with
  | '2' :: '3' :: rest => some (rest.reverse, .b32)
  | '4' :: '6' :: rest => some (rest.reverse, .b64)
  | _ => none

/-- The operands of a line, by mnemonic (30_encoding.md R94). -/
def readOperands (name : List Char) (operands : List (List Char)) : Option Line :=
  match splitMnemonic name, operands with
  | some (['D', 'E', 'C'], f), [x] => (readPattern x).map (.dec f)
  | some (['E', 'N', 'C'], f), [x] => (readPattern x).map (.enc f)
  | some (['E', 'X', 'P', 'D', 'E', 'C'], f), [E] => (readNat E).map (.expdec f)
  | some (['E', 'X', 'P', 'E', 'N', 'C'], f), [n] => (readNat n).map (.expenc f)
  | some (['M', 'A', 'N', 'D', 'E', 'C'], f), [M, e] =>
    (readNat M).bind fun m => (readInt e).map (.mandec f m)
  | some (['R', 'N', 'D'], f), [bits, g, r, st] =>
    (readNat bits).bind fun n => (readBit g).bind fun g => (readBit r).bind fun r => (readBit st).map (.rnd f n g r)
  | _, _ => none

/-- One line of text: `MNEMONIC operand[, operand]` and an optional `; comment` (30_encoding.md R94). -/
def readLine (s : List Char) : Option Line :=
  let code := trim (s.takeWhile (· != ';'))
  let name := code.takeWhile (· != ' ')
  let rest := trim (code.dropWhile (· != ' '))
  let operands := (splitCommas rest).map trim
  if name = ['W', 'A', 'I', 'T'] ∧ rest = [] then some .wait
  else if name = ['R', 'E', 'S', 'E', 'T'] ∧ rest = [] then some .reset
  else if name = ['.', 'o', 'p'] then
    match operands with
    | [k, a, b] => (readNat k).bind fun k => (readNat a).bind fun a => (readNat b).map (.raw k a)
    | _ => none
  else readOperands name operands

/-- One line of text as the cycle it stands for. -/
def assembleText (s : List Char) : Option PortCycle := (readLine s).bind assemble

/-- A program: one line a cycle (10_state.md R32, 30_encoding.md R94), as the cycles the host presents. -/
def assembleProgram : List (List Char) → Option (List PortCycle)
  | [] => some []
  | line :: lines => (assembleText line).bind fun c => (assembleProgram lines).map (c :: ·)

end Sys2Proof.Machine
end

