-- ==== Sys2Proof/Machine/CoreFunction.lean ====
section
/-! DEFINITION. `CORE(op, a, b)`, the combinational function behind the command port, written out as 30_encoding.md R88
writes it. The step does not call it: it decodes a request and runs the instruction's meaning, which reads its unit's
output signals (10_state.md R39). That the two agree is a statement about the model. -/

namespace Sys2Proof.Machine

/-- `CORE(op, a, b)` (30_encoding.md R88), the units built with the parameters `p`. -/
def coreFunction (p : Params) (op : OpCode) (a : Word) (b : SideWord) : Status × Word :=
  match op.toNat with
  | 0x0 => respond (decodeFloat .b32 (a.extractLsb' 0 32))
  | 0x1 => respond (decodeFloat .b64 a)
  | 0x2 => respond (encodeFloat p .b32 (a.extractLsb' 0 32))
  | 0x3 => respond (encodeFloat p .b64 a)
  | 0x4 => respond (.ok (sext64 (expDecodeSignal .b32 (seq (a.extractLsb' 0 8)))))
  | 0x5 => respond (.ok (sext64 (expDecodeSignal .b64 (seq (a.extractLsb' 0 11)))))
  | 0x6 => respond ((expEncode .b32 (a.extractLsb' 0 16).toNat).map (word 8))
  | 0x7 => respond ((expEncode .b64 (a.extractLsb' 0 16).toNat).map (word 11))
  | 0x8 => respond (manDecode .b32 (seq (a.extractLsb' 0 23)) (signed b))
  | 0x9 => respond (manDecode .b64 (seq (a.extractLsb' 0 52)) (signed b))
  | 0xA => respond ((roundBits (seq (a.extractLsb' 0 23)) (b.getLsbD 2) (b.getLsbD 1) (b.getLsbD 0)).map (word 23))
  | 0xB => respond ((roundBits (seq (a.extractLsb' 0 52)) (b.getLsbD 2) (b.getLsbD 1) (b.getLsbD 0)).map (word 52))
  | _ => respond (n := 64) (.error .illegalOp)

end Sys2Proof.Machine
end

