-- ==== Sys2Proof/Machine/Values.lean ====
section
/-! DEFINITION. The exact rational values the rules speak of (00_scope.md R16, R20; 42_mantissa_normalizer.md R150). The
step never computes with them: they say what the model's natural-number arithmetic stands for (log 6). -/

namespace Sys2Proof.Machine

/-- The DecodedFields sign, +1 or -1 (40_field_extractor_validator.md R111). -/
def signValue (s : Bool) : ℚ := if s then -1 else 1

/-- `nativeValue_f(x)`: the value of a pattern read as a native IEEE-754 pattern, undefined for a non-finite one
(00_scope.md R20). Its `E = 0` case is the spec's own from general knowledge (93_implementation_defined.md G1). PRESUMED, log 12. -/
def nativeValue (f : Fmt) (x : BitVec f.N) : Option ℚ :=
  let E := f.expOf x
  let M : ℚ := f.manOf x
  if E = f.emaxField then none
  else if 0 < E then some (signValue (f.signOf x) * (1 + M / 2 ^ f.W) * 2 ^ ((E : ℤ) - f.bias))
  else some (signValue (f.signOf x) * (M / 2 ^ f.W) * 2 ^ (1 - (f.bias : ℤ)))

/-- The fraction a sequence stands for: the sum over j of `lo@j * 2^-(j+1)` (42_mantissa_normalizer.md R150). -/
def fractionValue (lo : BitSeq) : ℚ :=
  ∑ j ∈ Finset.range lo.length, ((lo.getD j false).toNat : ℚ) * (1 / 2) ^ (j + 1)

/-- `ManValue_f(M, e)` as the exact rational of 42_mantissa_normalizer.md R150. -/
def magnitudeValue (f : Fmt) (M : BitSeq) (e : Int) : Except Err ℚ :=
  if allZeros M ∧ e = 0 then .ok 0
  else if e < 0 ∨ e > f.W then .error .emptyMantissa
  else .ok ((binToNat (true :: slice M 0 e.toNat) : ℚ) + fractionValue (slice M e.toNat f.W))

end Sys2Proof.Machine
end

