-- ==== Sys2Proof/Safety.lean ====
section
/-! DEFINITION. What a safe run is, in the terms the statements use: every step completes, every operation writes only
the codes of its row (60_exceptions.md R252), and an error never comes with a result (R253). -/

namespace Sys2Proof.Machine

/-- A step that ends in a next state: no fault and no refusal (60_exceptions.md R250). -/
def Completes (o : Host.Outcome State Fault Refusal) : Prop := ∃ t, o = .next t

/-- k steps, one a rising edge, stopping at the first fault or refusal (10_state.md R35). -/
def stepN : Nat → State → Host.Outcome State Fault Refusal
  | 0, s => .next s
  | k + 1, s =>
    match step s with
    | .next s' => stepN k s'
    | .fault r => .fault r
    | .refused r => .refused r

/-- The status codes each operation can write (60_exceptions.md R252). `SplitError` (9) is among an encoder's codes only
when its INT_MAG_BITS_f is below the default (R251). -/
def allowedCodes (p : Params) : Mnemonic → List Status
  | .DEC32 | .DEC64 => [0, 2, 3, 5]
  | .ENC32 => if p.intMagBits32 < Params.default.intMagBits32 then [0, 2, 8, 9] else [0, 2, 8]
  | .ENC64 => if p.intMagBits64 < Params.default.intMagBits64 then [0, 2, 8, 9] else [0, 2, 8]
  | .EXPDEC32 | .EXPDEC64 => [0]
  | .EXPENC32 | .EXPENC64 => [0, 10]
  | .MANDEC32 | .MANDEC64 => [0, 5]
  | .RND32 | .RND64 => [0, 8]
  | .RESERVED => [11]

/-- A status that some operation can write: its code is among some row's codes. Codes 1, 4, 6 and 7 are unreachable and
12 to 15 reserved (60_exceptions.md R251). -/
def writableStatus (p : Params) (st : Status) : Prop := ∃ m, st ∈ allowedCodes p m

/-- The registers hold a response the block can give: a reachable status, and result 0 with an error (60_exceptions.md
R251, R253). -/
def State.Coherent (s : State) : Prop :=
  writableStatus s.cfg s.rspStatus ∧ (s.rspStatus ≠ 0 → s.rspResult = 0)

end Sys2Proof.Machine
end

