-- ==== Sys2Proof/Certificates/Slice0/Obligations.lean ====
section
/-! DEFINITION. The statements about the model, from the spec's numbered rules. The helper definitions before them write
a rule's table or formula out in closed form, on the numbers of the fields and not on BitSequences, so that a statement
does not repeat the unit functions it is about. -/

namespace Sys2Proof.Machine

/-! ## Closed forms -/

/-- The state after an accepted request with this response, everything else unchanged (10_state.md R35). -/
def withResponse (s : State) (rsp : Status × Word) : State :=
  { rspValid := true, rspStatus := rsp.1, rspResult := rsp.2, cfg := s.cfg, port := s.port }

/-- The response of a decoder: the table of 44_decoders.md R203, in its order, and the result formula of R202. -/
def decoderResponse (f : Fmt) (x : BitVec f.N) : Status × Word :=
  let E := f.expOf x
  let M := f.manOf x
  if E = f.emaxField then (2, 0)
  else if M = 0 then (3, 0)
  else if E = 0 then (0, BitVec.ofNat 64 ((f.signOf x).toNat * 2 ^ (f.N - 1) + f.bias * 2 ^ f.W + M))
  else if f.bias ≤ E ∧ E ≤ f.bias + f.W then (0, BitVec.ofNat 64 x.toNat)
  else (5, 0)

/-- The mantissa field of a value below 1 with its carry: `q`, the first `W + margin + 1` fraction digits as a number,
rounded to its first W digits, to the nearest and from the middle to the even one (45_encoders.md R233). -/
def roundedFraction (margin q : Nat) : Nat :=
  let m := q / 2 ^ (margin + 1)
  let rest := q % 2 ^ (margin + 1)
  if 2 ^ margin < rest ∨ (rest = 2 ^ margin ∧ m % 2 = 1) then m + 1 else m

/-- The response of an encoder (45_encoders.md R224, R225, R232 to R234): `v` is the input's magnitude in units of
`2^-D`. -/
def encoderResponse (p : Params) (f : Fmt) (x : BitVec f.N) : Status × Word :=
  let E := f.expOf x
  let D := f.bias - 1 + f.W
  let v := if E = 0 then f.manOf x else (2 ^ f.W + f.manOf x) * 2 ^ (E - 1)
  let m := roundedFraction (f.fracMargin p) (v * 2 ^ (f.W + f.fracMargin p + 1) / 2 ^ D)
  if E = f.emaxField then (2, 0)
  else if 2 ^ (D + f.intMagBits p) ≤ v then (9, 0)
  else if 2 ^ D ≤ v then (0, BitVec.ofNat 64 x.toNat)
  else if m = 2 ^ f.W then (8, 0)
  else (0, BitVec.ofNat 64 ((f.signOf x).toNat * 2 ^ (f.N - 1) + m))

/-- The response of the mantissa decode (42_mantissa_normalizer.md R151, R152, R155). -/
def magnitudeResponse (f : Fmt) (M : Nat) (e : Int) : Status × Word :=
  if M = 0 ∧ e = 0 then (0, 0)
  else if 0 ≤ e ∧ e ≤ f.W then (0, BitVec.ofNat 64 ((e.toNat + f.bias) * 2 ^ f.W + M))
  else (5, 0)

/-- The response of the rounding unit on a candidate of w bits (43_round_to_even_unit.md R182, R183, R185). -/
def roundingResponse {w : Nat} (bits : BitVec w) (g r st : Bool) : Status × Word :=
  if g = true ∧ (r = true ∨ st = true ∨ bits.getLsbD 0 = true) then
    if bits = BitVec.allOnes w then (8, 0) else (0, (bits + 1).setWidth 64)
  else (0, bits.setWidth 64)

/-! ## Decimal literals -/

/-- The pattern `y` of a format is nearest to `q` among the finite ones, and from the middle the one whose last bit is 0
(30_encoding.md R95). -/
def IsNearest (f : Fmt) (y : Nat) (q : ℚ) : Prop :=
  ∃ w : ℚ, nativeValue f (BitVec.ofNat f.N y) = some w ∧ ∀ (x : BitVec f.N) (v : ℚ), nativeValue f x = some v →
    |w - q| ≤ |v - q| ∧ (|v - q| = |w - q| → v = w ∨ y % 2 = 0)

/-- Where no finite pattern is taken for `q`: from half a spacing above the largest finite value on (log 11). -/
def PastTheLargest (f : Fmt) (q : ℚ) : Prop :=
  (2 ^ (f.W + 2) - 1) * 2 ^ (f.emaxField - f.bias - f.W - 2) ≤ q

/-- Decimal digits as text. -/
def digitText (ds : List (Fin 10)) : List Char := ds.map fun d => Char.ofNat (48 + d.val)

/-- Decimal digits as a number. -/
def digitsNumber (ds : List (Fin 10)) : Nat := ds.foldl (fun acc d => 10 * acc + d.val) 0

/-- The text `f32(d)` or `f64(d)`, for `d` a sign, whole digits, a point with digits where there are any, and an exponent
where there is one (30_encoding.md R95; the grammar is log 11's). -/
def literalText (f : Fmt) (neg : Bool) (whole : List (Fin 10)) (frac : Option (List (Fin 10)))
    (exponent : Option (Bool × List (Fin 10))) : List Char :=
  (match f with | .b32 => "f32(".toList | .b64 => "f64(".toList) ++
  (if neg then ['-'] else []) ++ digitText whole ++
  (match frac with | none => [] | some ds => '.' :: digitText ds) ++
  (match exponent with | none => [] | some (eneg, ds) => 'e' :: (if eneg then ['-'] else []) ++ digitText ds) ++ [')']

/-- The magnitude of that literal. -/
def literalMagnitude (whole : List (Fin 10)) (frac : Option (List (Fin 10)))
    (exponent : Option (Bool × List (Fin 10))) : ℚ :=
  let places := frac.getD []
  let e : ℤ := match exponent with
    | none => 0
    | some (eneg, ds) => if eneg then -(digitsNumber ds : ℤ) else digitsNumber ds
  (digitsNumber (whole ++ places) : ℚ) / 10 ^ places.length * 10 ^ e

end Sys2Proof.Machine

open Sys2Proof Sys2Proof.Machine

/-! ## Reset, the edge and the step -/

/-- 10_state.md R34: the reset values of the three response registers. -/
def Obligations.ResetRegistersAreZero : Prop :=
  State.reset.rspValid = false ∧ State.reset.rspStatus = 0 ∧ State.reset.rspResult = 0x0000000000000000

/-- 70_reset_and_hazards.md R280: any number of reset cycles, whatever the request signals are, from any state; the
parameters stay (R281) and the edges after them see the cycles that follow. -/
def Obligations.ResetCyclesClearTheRegisters : Prop :=
  ∀ (s : State) (resets rest : List PortCycle), resets ≠ [] → (∀ c ∈ resets, c.rst = true) →
    s.port = resets ++ rest →
    stepN resets.length s =
      .next { rspValid := false, rspStatus := 0, rspResult := 0, cfg := s.cfg, port := rest }

/-- 10_state.md R35 with 30_encoding.md R88: the step function, in the rule's own three cases. -/
def Obligations.EdgeIsTheStepFunction : Prop :=
  ∀ (s : State) (c : PortCycle) (rest : List PortCycle), s.port = c :: rest →
    step s =
      if c.rst then .next { rspValid := false, rspStatus := 0, rspResult := 0, cfg := s.cfg, port := rest }
      else if c.reqValid then
        .next { rspValid := true, rspStatus := (coreFunction s.cfg c.reqOp c.reqA c.reqB).1,
                rspResult := (coreFunction s.cfg c.reqOp c.reqA c.reqB).2, cfg := s.cfg, port := rest }
      else .next { rspValid := false, rspStatus := s.rspStatus, rspResult := s.rspResult, cfg := s.cfg, port := rest }

/-- A request's step is exec of the decoded instruction, with the cycle's signals gone (10_state.md R35, R41). -/
def Obligations.StepRunsTheDecodedInstruction : Prop :=
  ∀ (s : State) (c : PortCycle) (rest : List PortCycle) (i : Instr), s.port = c :: rest →
    c.rst = false → c.reqValid = true → decode (packCmd c.reqOp c.reqA c.reqB) = i →
    step s = exec i { s with port := rest }

/-- The model's choice of log 1: with no cycle announced the edge is an idle one. -/
def Obligations.ExhaustedPortIdles : Prop :=
  ∀ s : State, s.port = [] → step s = .next { s with rspValid := false }

/-- 10_state.md R35 and 70_reset_and_hazards.md R284: whatever went before, after a request and any number of idle
cycles the registers hold that request's response, and `rsp_valid` is 1 in its first cycle only. -/
def Obligations.ResponseHeldUntilOverwritten : Prop :=
  ∀ (s : State) (before idles rest : List PortCycle) (c : PortCycle), c.rst = false → c.reqValid = true →
    (∀ d ∈ idles, d.rst = false ∧ d.reqValid = false) → s.port = before ++ c :: (idles ++ rest) →
    ∃ t : State, stepN (before.length + 1 + idles.length) s = .next t ∧
      (t.rspStatus, t.rspResult) = coreFunction s.cfg c.reqOp c.reqA c.reqB ∧
      t.rspValid = idles.isEmpty ∧ t.cfg = s.cfg ∧ t.port = rest

/-- 70_reset_and_hazards.md R285 at the model's LATENCY of 1 (log 3): the response is in the registers one edge after the
request. -/
def Obligations.ResponseComesAfterLatency : Prop :=
  ∀ (s : State) (i : Instr) (rest : List PortCycle), i.wf = true → s.port = .request (encode i) :: rest →
    ∃ t : State, stepN Params.latency s = .next t ∧ exec i { s with port := rest } = .next t ∧
      t.rspValid = true

/-- 60_exceptions.md R250, R257 and 70_reset_and_hazards.md R286: no run of any length stops. -/
def Obligations.EveryRunCompletes : Prop :=
  ∀ (k : Nat) (s : State), Completes (stepN k s)

/-- An instruction writes the three response registers and nothing else (10_state.md R35, R37, R41). -/
def Obligations.InstructionsWriteOnlyTheResponse : Prop :=
  ∀ (i : Instr) (s : State), ∃ t : State, exec i s = .next t ∧
    t.rspValid = true ∧ t.cfg = s.cfg ∧ t.port = s.port

/-- 20_memory.md R67 and 60_exceptions.md R255: a repeated request gives the same response, and so do two states with
the same parameters. -/
def Obligations.ResponseDependsOnTheRequestAlone : Prop :=
  ∀ (i : Instr) (s s' : State), s.cfg = s'.cfg → ∃ t t' : State, exec i s = .next t ∧ exec i s' = .next t' ∧
    exec i t = .next t ∧ t.rspValid = t'.rspValid ∧ t.rspStatus = t'.rspStatus ∧ t.rspResult = t'.rspResult

/-! ## The invariant -/

/-- The reset state holds a response the block can give. -/
def Obligations.ResetIsCoherent : Prop := State.reset.Coherent

/-- 60_exceptions.md R251 to R253: in every step the status is one that some operation can write, an error comes with
result 0, and the parameters do not change (10_state.md R37). -/
def Obligations.StepKeepsCoherence : Prop :=
  ∀ s t : State, s.Coherent → step s = .next t → t.Coherent ∧ t.cfg = s.cfg

/-- 60_exceptions.md R252: each operation writes only the codes listed for it. -/
def Obligations.OperationsWriteOnlyTheirCodes : Prop :=
  ∀ (i : Instr) (s : State), ∃ t : State, exec i s = .next t ∧ t.rspStatus ∈ allowedCodes s.cfg i.mnemonic

/-- 60_exceptions.md R252, the other direction: each listed code is written for some operands. -/
def Obligations.EveryListedCodeIsWritten : Prop :=
  ∀ (p : Params) (m : Mnemonic), ∀ st ∈ allowedCodes p m, ∃ i : Instr, i.wf = true ∧ i.mnemonic = m ∧
    ∀ s : State, s.cfg = p → ∃ t : State, exec i s = .next t ∧ t.rspStatus = st

/-- 60_exceptions.md R253: a status other than 0 always comes with result 0. -/
def Obligations.ErrorsCarryNoResult : Prop :=
  ∀ (i : Instr) (s : State), ∃ t : State, exec i s = .next t ∧ (t.rspStatus ≠ 0 → t.rspResult = 0)

/-- 30_encoding.md R89: where a result is narrower than 64 bits the higher bits are 0, and the exponent decodes
sign-extend their 16-bit value. -/
def Obligations.ResultPlacement : Prop :=
  (∀ (x : BitVec 32) (s : State), ∃ t, exec (.dec32 x) s = .next t ∧ t.rspResult.toNat < 2 ^ 32) ∧
  (∀ (x : BitVec 32) (s : State), ∃ t, exec (.enc32 x) s = .next t ∧ t.rspResult.toNat < 2 ^ 32) ∧
  (∀ (n : BitVec 16) (s : State), ∃ t, exec (.expenc32 n) s = .next t ∧ t.rspResult.toNat < 2 ^ 8) ∧
  (∀ (n : BitVec 16) (s : State), ∃ t, exec (.expenc64 n) s = .next t ∧ t.rspResult.toNat < 2 ^ 11) ∧
  (∀ (M : BitVec 23) (e : BitVec 16) (s : State), ∃ t, exec (.mandec32 M e) s = .next t ∧ t.rspResult.toNat < 2 ^ 32) ∧
  (∀ (b : BitVec 23) (g r st : Bool) (s : State), ∃ t, exec (.rnd32 b g r st) s = .next t ∧ t.rspResult.toNat < 2 ^ 23) ∧
  (∀ (b : BitVec 52) (g r st : Bool) (s : State), ∃ t, exec (.rnd64 b g r st) s = .next t ∧ t.rspResult.toNat < 2 ^ 52) ∧
  (∀ (E : BitVec 8) (s : State), ∃ t, exec (.expdec32 E) s = .next t ∧
    t.rspResult = (t.rspResult.setWidth 16).signExtend 64) ∧
  (∀ (E : BitVec 11) (s : State), ∃ t, exec (.expdec64 E) s = .next t ∧
    t.rspResult = (t.rspResult.setWidth 16).signExtend 64)

/-! ## The command word -/

/-- 30_encoding.md R85 to R87: decoding the command word of a well-formed instruction gives it back, every operand at
every value. -/
def Obligations.DecodeOfEncode : Prop := ∀ i : Instr, i.wf = true → decode (encode i) = i

/-- 30_encoding.md R87: no operand bit that is read is lost or moved. That the encoder writes the ignored bits as 0, and
that a reserved instruction holds operand bits its operation does not read, are the model's choices (DEDUCED, log 14; R93
only advises software to write 0). -/
def Obligations.EncodeOfDecodeClearsIgnoredBits : Prop :=
  ∀ (w : CmdWord), ∀ row ∈ opRows, row.selects w = true →
    encode (decode w) = w &&& row.holds ∧ row.reads &&& row.holds = row.reads ∧
    (row.mnemonic ≠ .RESERVED → row.holds = row.reads)

/-- 30_encoding.md R91: every word selects exactly one row, by `CMD[83:80]` alone, and decodes to a well-formed
instruction of that row. -/
def Obligations.EveryWordSelectsOneRow : Prop :=
  ∀ w : CmdWord, (decode w).wf = true ∧ (∃ row ∈ opRows, row.selects w = true) ∧
    (∀ row ∈ opRows, row.selects w = true → row.mnemonic = (decode w).mnemonic) ∧
    (∀ w' : CmdWord, w'.extractLsb' 80 4 = w.extractLsb' 80 4 → ∀ row ∈ opRows, row.selects w' = row.selects w)

/-- 30_encoding.md R93: operand bits that R87 does not list have no influence on the response. A reserved request reads
none. -/
def Obligations.IgnoredBitsHaveNoEffect : Prop :=
  ∀ (w w' : CmdWord) (s : State), ∀ row ∈ opRows, row.selects w = true → row.reads &&& w = row.reads &&& w' →
    step (s.present w) = step (s.present w')

/-- Words written out from 30_encoding.md R85 to R87, R94 and R96, one of each family and one reserved. -/
def Obligations.SpecWordsDecode : Prop :=
  decode 0x000000000C2AA40000000 = .dec32 0xC2AA4000 ∧
  decode 0x140240083126E978D0000 = .dec64 0x40240083126E978D ∧
  decode 0x2000000003F4000000000 = .enc32 0x3F400000 ∧
  decode 0x500000000000004020000 = .expdec64 0x402 ∧
  decode 0x600000000000000060000 = .expenc32 6 ∧
  decode 0x800000000002A4000FFFF = .mandec32 0x2A4000 0xFFFF ∧
  decode 0xA00000000005555550004 = .rnd32 0x555555 true false false ∧
  decode 0xC00000000000012345678 = .reserved 0xC 0x1234 0x5678

/-! ## Operations: what each computes, in every state and for every operand -/

/-- 44_decoders.md R204: DEC32, with the table of R203 and the formula of R202, which the spec derives from R200. -/
def Obligations.Dec32Responds : Prop :=
  (∀ (a : Word) (b : SideWord), decode (packCmd 0x0 a b) = .dec32 (a.extractLsb' 0 32)) ∧
  ∀ (x : BitVec 32) (s : State), exec (.dec32 x) s = .next (withResponse s (decoderResponse .b32 x))

/-- 44_decoders.md R205: DEC64, with the table of R203 and the formula of R202. -/
def Obligations.Dec64Responds : Prop :=
  (∀ (a : Word) (b : SideWord), decode (packCmd 0x1 a b) = .dec64 a) ∧
  ∀ (x : BitVec 64) (s : State), exec (.dec64 x) s = .next (withResponse s (decoderResponse .b64 x))

/-- 45_encoders.md R235: ENC32, with R224, R225 and the closed form that R232 to R234 derive, for every value of the
parameters. The value of a subnormal input is R20's, from general knowledge (PRESUMED, log 12). -/
def Obligations.Enc32Responds : Prop :=
  (∀ (a : Word) (b : SideWord), decode (packCmd 0x2 a b) = .enc32 (a.extractLsb' 0 32)) ∧
  ∀ (x : BitVec 32) (s : State), exec (.enc32 x) s = .next (withResponse s (encoderResponse s.cfg .b32 x))

/-- 45_encoders.md R236: ENC64, as ENC32 above: with R224, R225 and the closed form that R232 to R234 derive, a subnormal
input's value being R20's (PRESUMED, log 12). -/
def Obligations.Enc64Responds : Prop :=
  (∀ (a : Word) (b : SideWord), decode (packCmd 0x3 a b) = .enc64 a) ∧
  ∀ (x : BitVec 64) (s : State), exec (.enc64 x) s = .next (withResponse s (encoderResponse s.cfg .b64 x))

/-- 41_exponent_bias_converter.md R134: EXPDEC32. -/
def Obligations.Expdec32Responds : Prop :=
  (∀ (a : Word) (b : SideWord), decode (packCmd 0x4 a b) = .expdec32 (a.extractLsb' 0 8)) ∧
  ∀ (E : BitVec 8) (s : State),
    exec (.expdec32 E) s = .next (withResponse s (0, if E = 0 then 0 else E.setWidth 64 - 127))

/-- 41_exponent_bias_converter.md R135: EXPDEC64. -/
def Obligations.Expdec64Responds : Prop :=
  (∀ (a : Word) (b : SideWord), decode (packCmd 0x5 a b) = .expdec64 (a.extractLsb' 0 11)) ∧
  ∀ (E : BitVec 11) (s : State),
    exec (.expdec64 E) s = .next (withResponse s (0, if E = 0 then 0 else E.setWidth 64 - 1023))

/-- 41_exponent_bias_converter.md R136: EXPENC32. -/
def Obligations.Expenc32Responds : Prop :=
  (∀ (a : Word) (b : SideWord), decode (packCmd 0x6 a b) = .expenc32 (a.extractLsb' 0 16)) ∧
  ∀ (n : BitVec 16) (s : State),
    exec (.expenc32 n) s = .next (withResponse s (if 128 < n.toNat then (10, 0) else (0, n.setWidth 64 + 127)))

/-- 41_exponent_bias_converter.md R137: EXPENC64. -/
def Obligations.Expenc64Responds : Prop :=
  (∀ (a : Word) (b : SideWord), decode (packCmd 0x7 a b) = .expenc64 (a.extractLsb' 0 16)) ∧
  ∀ (n : BitVec 16) (s : State),
    exec (.expenc64 n) s = .next (withResponse s (if 1024 < n.toNat then (10, 0) else (0, n.setWidth 64 + 1023)))

/-- 42_mantissa_normalizer.md R170: MANDEC32. -/
def Obligations.Mandec32Responds : Prop :=
  (∀ (a : Word) (b : SideWord), decode (packCmd 0x8 a b) = .mandec32 (a.extractLsb' 0 23) b) ∧
  ∀ (M : BitVec 23) (e : BitVec 16) (s : State),
    exec (.mandec32 M e) s = .next (withResponse s (magnitudeResponse .b32 M.toNat e.toInt))

/-- 42_mantissa_normalizer.md R171: MANDEC64. -/
def Obligations.Mandec64Responds : Prop :=
  (∀ (a : Word) (b : SideWord), decode (packCmd 0x9 a b) = .mandec64 (a.extractLsb' 0 52) b) ∧
  ∀ (M : BitVec 52) (e : BitVec 16) (s : State),
    exec (.mandec64 M e) s = .next (withResponse s (magnitudeResponse .b64 M.toNat e.toInt))

/-- 43_round_to_even_unit.md R190: RND32. -/
def Obligations.Rnd32Responds : Prop :=
  (∀ (a : Word) (b : SideWord), decode (packCmd 0xA a b) =
    .rnd32 (a.extractLsb' 0 23) (b.getLsbD 2) (b.getLsbD 1) (b.getLsbD 0)) ∧
  ∀ (bits : BitVec 23) (g r st : Bool) (s : State),
    exec (.rnd32 bits g r st) s = .next (withResponse s (roundingResponse bits g r st))

/-- 43_round_to_even_unit.md R191: RND64. -/
def Obligations.Rnd64Responds : Prop :=
  (∀ (a : Word) (b : SideWord), decode (packCmd 0xB a b) =
    .rnd64 (a.extractLsb' 0 52) (b.getLsbD 2) (b.getLsbD 1) (b.getLsbD 0)) ∧
  ∀ (bits : BitVec 52) (g r st : Bool) (s : State),
    exec (.rnd64 bits g r st) s = .next (withResponse s (roundingResponse bits g r st))

/-- 30_encoding.md R90: a reserved request is accepted like any other and answers IllegalOp with result 0. -/
def Obligations.ReservedAnswersIllegalOp : Prop :=
  (∀ (k : OpCode) (a : Word) (b : SideWord), 12 ≤ k.toNat → decode (packCmd k a b) = .reserved k a b) ∧
  ∀ (k : OpCode) (a : Word) (b : SideWord) (s : State), exec (.reserved k a b) s = .next (withResponse s (11, 0))

/-! ## Field extractor and validator -/

/-- 40_field_extractor_validator.md R110: the slices of a pattern's sequence are its word fields. -/
def Obligations.ExtractedFieldsAreTheWordFields : Prop :=
  ∀ (f : Fmt) (x : BitVec f.N),
    (extract f (seq x)).sign = x.getLsbD (f.N - 1) ∧
    (extract f (seq x)).expField = seq (x.extractLsb' f.W f.K) ∧
    (extract f (seq x)).mantissa = seq (x.extractLsb' 0 f.W)

/-- 40_field_extractor_validator.md R115: the checks in their order, the first that fails reported. -/
def Obligations.ValidatorOrder : Prop :=
  ∀ (f : Fmt) (fs : Fields),
    (fs.expField.length ≠ f.K → validate f fs = .error .invalidBitLength) ∧
    (fs.expField.length = f.K → (∀ b ∈ fs.expField, b = true) → validate f fs = .error .exponentAllOnes) ∧
    (fs.expField.length = f.K → (∃ b ∈ fs.expField, b = false) → (∀ b ∈ fs.mantissa, b = false) →
      validate f fs = .error .mantissaAllZeros) ∧
    (fs.expField.length = f.K → (∃ b ∈ fs.expField, b = false) → (∃ b ∈ fs.mantissa, b = true) →
      validate f fs = .ok ())

/-! ## exponent_bias_converter -/

/-- 41_exponent_bias_converter.md R138: the round trips between the directions, and where there is none. -/
def Obligations.ExponentRoundTrips : Prop :=
  ∀ f : Fmt,
    (∀ n : Nat, n ≤ f.emaxField - f.bias → (expEncode f n).map (expDecode f) = .ok (n : Int)) ∧
    (∀ E : BitSeq, E.length = f.K → f.bias ≤ binToNat E → expEncode f (expDecode f E).toNat = .ok E) ∧
    (∀ E : BitSeq, E.length = f.K → binToNat E = 0 →
      expEncode f (expDecode f E).toNat = .ok (fixedBin f.K f.bias)) ∧
    (∀ E : BitSeq, E.length = f.K → 0 < binToNat E → binToNat E < f.bias →
      expDecode f E < 0 ∧ ∀ n : Nat, expEncode f n ≠ .ok E)

/-- 10_state.md R40: the unbiased exponent of a field lies within its bounds and a signed 16-bit signal holds it. -/
def Obligations.ExponentFitsItsSignal : Prop :=
  ∀ (f : Fmt) (E : BitSeq), E.length = f.K →
    (expDecodeSignal f E).toInt = expDecode f E ∧
    -((f.bias : Int) - 1) ≤ expDecode f E ∧ expDecode f E ≤ (f.emaxField : Int) - f.bias

/-! ## mantissa_normalizer -/

/-- 42_mantissa_normalizer.md R150 and R154: the model's magnitude, in units of 2^-W, is the rule's exact rational, and
outside the special case that is `(1 + M / 2^W) * 2^e`, which R154 derives from R150. -/
def Obligations.MagnitudeIsExact : Prop :=
  ∀ (f : Fmt) (M : BitSeq) (e : Int), M.length = f.W →
    (manValue f M e).map (fun m : Nat => (m : ℚ) / 2 ^ f.W) = magnitudeValue f M e ∧
    (0 ≤ e → e ≤ f.W → ¬ (binToNat M = 0 ∧ e = 0) →
      magnitudeValue f M e = .ok ((1 + (binToNat M : ℚ) / 2 ^ f.W) * 2 ^ e.toNat))

/-- 42_mantissa_normalizer.md R155: the pattern returned is the one whose native value is the magnitude, and the two
fail alike. -/
def Obligations.MagnitudePatternHasItsValue : Prop :=
  ∀ (f : Fmt) (M : BitSeq) (e : Int), M.length = f.W →
    (∀ err, manDecode f M e = .error err ↔ magnitudeValue f M e = .error err) ∧
    ∀ y, manDecode f M e = .ok y → f.signOf y = false ∧ ∃ v, magnitudeValue f M e = .ok v ∧ nativeValue f y = some v

/-- 42_mantissa_normalizer.md R160: the integer bits are the shortest sequence of the number's value. -/
def Obligations.IntegerExpansion : Prop :=
  intBits 0 = [] ∧
  ∀ I : Nat, 0 < I → binToNat (intBits I) = I ∧ (intBits I).head? = some true ∧
    ∀ S : BitSeq, binToNat S = I → (intBits I).length ≤ S.length

/-- 42_mantissa_normalizer.md R161: the fraction bits are the leading binary digits of the fraction, exactly as many as
it has where the bound allows, and the bound many otherwise. `F` counts units of 2^-fracUnits. -/
def Obligations.FractionExpansion : Prop :=
  ∀ (p : Params) (f : Fmt) (F : Nat), F < 2 ^ f.fracUnits →
    (fracBits p f F).length ≤ f.W + f.fracMargin p + 1 ∧
    binToNat (fracBits p f F) = F * 2 ^ (fracBits p f F).length / 2 ^ f.fracUnits ∧
    ((fracBits p f F).length < f.W + f.fracMargin p + 1 → 2 ^ f.fracUnits ∣ F * 2 ^ (fracBits p f F).length) ∧
    ∀ k < (fracBits p f F).length, ¬ 2 ^ f.fracUnits ∣ F * 2 ^ k

/-- 42_mantissa_normalizer.md R164: the bounds of the mantissa buffer for every finite input; its normalization never
fails (45_encoders.md R226). -/
def Obligations.BufferBounds : Prop :=
  ∀ (p : Params) (f : Fmt) (x : BitVec f.N), f.expOf x ≠ f.emaxField →
    ∃ Ef MB, normalize p f (splitInt f x) (splitFrac f x) = .ok (Ef, MB) ∧ Ef.length = f.K ∧
      MB.length ≤ f.mbMax p ∧
      (1 ≤ splitInt f x → f.bias ≤ f.expOf x ∧ bitCount (splitInt f x) = f.expOf x - f.bias + 1 ∧
        (fracBits p f (splitFrac f x)).length ≤ f.W - (f.expOf x - f.bias) ∧
        MB.length ≤ max (f.expOf x - f.bias) f.W) ∧
      (splitInt f x = 0 → MB = fracBits p f (splitFrac f x) ∧ MB.length ≤ f.W + f.fracMargin p + 1)

/-! ## round_to_even_unit -/

/-- 43_round_to_even_unit.md R180 to R187: the buffer's value is rounded to its first W bits, to the nearest, and from
exactly half to the even candidate; it overflows exactly when that candidate needs another bit. -/
def Obligations.BufferRoundsToNearestEven : Prop :=
  ∀ (f : Fmt) (MB : BitSeq) (k : Nat), MB.length = f.W + k + 1 →
    let m := binToNat MB / 2 ^ (k + 1)
    let rest := binToNat MB % 2 ^ (k + 1)
    let up := if 2 ^ k < rest ∨ (rest = 2 ^ k ∧ m % 2 = 1) then m + 1 else m
    roundBuffer f MB = if up = 2 ^ f.W then .error .roundingOverflow else .ok (fixedBin f.W up)

/-! ## Decoders and encoders on values -/

/-- 44_decoders.md R203: the domain, and the error of every other input, in the table's order. -/
def Obligations.DecoderDomain : Prop :=
  ∀ (f : Fmt) (x : BitVec f.N),
    ((∃ y, decodeFloat f x = .ok y) ↔
      f.manOf x ≠ 0 ∧ (f.expOf x = 0 ∨ (f.bias ≤ f.expOf x ∧ f.expOf x ≤ f.bias + f.W))) ∧
    (f.expOf x = f.emaxField → decodeFloat f x = .error .exponentAllOnes) ∧
    (f.expOf x ≠ f.emaxField → f.manOf x = 0 → decodeFloat f x = .error .mantissaAllZeros) ∧
    (1 ≤ f.expOf x → f.expOf x < f.bias → f.manOf x ≠ 0 → decodeFloat f x = .error .emptyMantissa) ∧
    (f.bias + f.W < f.expOf x → f.expOf x < f.emaxField → f.manOf x ≠ 0 →
      decodeFloat f x = .error .emptyMantissa)

/-- 44_decoders.md R202: the fields and the value of a decoded pattern. -/
def Obligations.DecodedPatternAndValue : Prop :=
  ∀ (f : Fmt) (x y : BitVec f.N), decodeFloat f x = .ok y →
    f.signOf y = f.signOf x ∧ f.manOf y = f.manOf x ∧
    f.expOf y = (if f.expOf x = 0 then f.bias else f.expOf x) ∧
    nativeValue f y = some (signValue (f.signOf x) * (1 + (f.manOf x : ℚ) / 2 ^ f.W) *
      2 ^ (expDecode f (seq (x.extractLsb' f.W f.K))))

/-- 45_encoders.md R223: the split is exact. -/
def Obligations.SplitIsExact : Prop :=
  ∀ (f : Fmt) (x : BitVec f.N) (v : ℚ), nativeValue f x = some v →
    (splitInt f x : ℤ) = ⌊|v|⌋ ∧ (splitFrac f x : ℚ) / 2 ^ f.fracUnits = |v| - splitInt f x ∧
    0 ≤ (splitFrac f x : ℚ) / 2 ^ f.fracUnits ∧ (splitFrac f x : ℚ) / 2 ^ f.fracUnits < 1

/-- 45_encoders.md R225: an integer part too large for its type fails with SplitError, which no finite input does with
the default widths or wider ones (the spec's own inference in R225; R251). -/
def Obligations.IntegerRange : Prop :=
  ∀ (p : Params) (f : Fmt) (x : BitVec f.N) (v : ℚ), nativeValue f x = some v →
    (2 ^ f.intMagBits p ≤ ⌊|v|⌋ → encodeFloat p f x = .error .splitError) ∧
    (f.intMagBits Params.default ≤ f.intMagBits p → encodeFloat p f x ≠ .error .splitError)

/-- 45_encoders.md R232: a finite value of at least 1 encodes to itself, given that its integer part fits the
integer-magnitude type, as it always does at the default width. -/
def Obligations.ValuesFromOneEncodeToThemselves : Prop :=
  ∀ (p : Params) (f : Fmt) (x : BitVec f.N) (v : ℚ), nativeValue f x = some v → 1 ≤ |v| →
    (|v| < 2 ^ f.intMagBits p → encodeFloat p f x = .ok x) ∧
    (f.intMagBits Params.default ≤ f.intMagBits p → encodeFloat p f x = .ok x)

/-- 45_encoders.md R233, R234: a value below 1 encodes with exponent field 0 and, as its mantissa field, its first
`W + FRAC_MARGIN_f + 1` fraction digits rounded to W, or fails with RoundingOverflow. -/
def Obligations.ValuesBelowOneEncodeTheirFraction : Prop :=
  ∀ (p : Params) (f : Fmt) (x : BitVec f.N) (v : ℚ), nativeValue f x = some v → |v| < 1 →
    let m := roundedFraction (f.fracMargin p) ⌊|v| * 2 ^ (f.W + f.fracMargin p + 1)⌋₊
    (m = 2 ^ f.W → encodeFloat p f x = .error .roundingOverflow) ∧
    (m ≠ 2 ^ f.W → ∃ y, encodeFloat p f x = .ok y ∧ f.signOf y = f.signOf x ∧ f.expOf y = 0 ∧ f.manOf y = m)

/-- 44_decoders.md R207: a value of at least 1 and below 2^(W+1) with a non-zero mantissa field encodes and decodes to
itself, and no other finite value comes back from encoding and decoding. The integer-magnitude type holds the integer
parts of that range, as it does at the default width. -/
def Obligations.CodecRoundTrip : Prop :=
  ∀ (p : Params) (f : Fmt) (x : BitVec f.N) (v : ℚ), f.W + 1 ≤ f.intMagBits p → nativeValue f x = some v →
    (1 ≤ |v| → |v| < 2 ^ (f.W + 1) → f.manOf x ≠ 0 → encodeFloat p f x = .ok x ∧ decodeFloat f x = .ok x) ∧
    ((encodeFloat p f x).bind (decodeFloat f) = .ok x ↔ 1 ≤ |v| ∧ |v| < 2 ^ (f.W + 1) ∧ f.manOf x ≠ 0)

/-- 10_state.md R39: each unit's output signals, and every value 0 with an error status (60_exceptions.md R253). The
encoder's clause is the closed form that 45_encoders.md R232 to R234 derive, with R224 and R225, and takes a subnormal
input's value as R20 gives it from general knowledge (PRESUMED, log 12); the decoder's is that of 44_decoders.md R202 and
R203. That the buffer of a failed normalization is the empty sequence is the model's choice (DESIGN CHOICE, log 17). -/
def Obligations.UnitSignals : Prop :=
  ∀ (p : Params) (f : Fmt),
    (∀ x : BitVec f.N, fieldUnit f x =
      if f.expOf x = f.emaxField then (2, { s := false, E := 0, M := 0 })
      else if f.manOf x = 0 then (3, { s := false, E := 0, M := 0 })
      else (0, { s := f.signOf x, E := x.extractLsb' f.W f.K, M := x.extractLsb' 0 f.W })) ∧
    (∀ E : BitVec f.K, (expDecodeUnit f E).toInt = if E.toNat = 0 then 0 else (E.toNat : Int) - f.bias) ∧
    (∀ n : BitVec 16, expEncodeUnit f n =
      if f.emaxField - f.bias < n.toNat then (10, 0) else (0, BitVec.ofNat f.K (n.toNat + f.bias))) ∧
    (∀ (M : BitVec f.W) (e : BitVec 16), place (manDecodeUnit f M e) = magnitudeResponse f M.toNat e.toInt) ∧
    (∀ (I : BitVec (f.intMagBits p)) (F : BitVec f.fracUnits), normalizeUnit p f I F =
      if 2 ^ (f.emaxField - f.bias + 1) ≤ I.toNat then (10, { E := 0, MB := [] })
      else (0, { E := BitVec.ofNat f.K (if I.toNat = 0 then 0 else I.toNat.log2 + f.bias),
                 MB := (intBits I.toNat).drop 1 ++ fracBits p f F.toNat })) ∧
    (∀ (bits : BitVec f.W) (g r st : Bool), place (roundBitsUnit f bits g r st) = roundingResponse bits g r st) ∧
    (∀ (MB : BitSeq) (k : Nat), MB.length = f.W + k + 1 →
      roundBufferUnit f MB =
        let up := roundedFraction k (binToNat MB)
        if up = 2 ^ f.W then (8, 0) else (0, BitVec.ofNat f.W up)) ∧
    (∀ x : BitVec f.N, place (decodeUnit f x) = decoderResponse f x) ∧
    (∀ x : BitVec f.N, place (encodeUnit p f x) = encoderResponse p f x)

/-! ## Sequences, byte lists and the assembler -/

/-- 00_scope.md R14: index 0 is word bit n-1, and the two conversions are inverse. -/
def Obligations.SequenceAndWordAreInverse : Prop :=
  ∀ n : Nat,
    (∀ w : BitVec n, (seq w).length = n ∧ word n (seq w) = w ∧
      ∀ i < n, (seq w)[i]? = some (w.getLsbD (n - 1 - i))) ∧
    (∀ S : BitSeq, S.length = n → seq (word n S) = S)

/-- 20_memory.md R62, R63: byte j of a list is `x[N-1-8j : N-8-8j]`, and serialising a word gives the list back. -/
def Obligations.ByteListsAreBigEndian : Prop :=
  ∀ (f : Fmt) (bytes : List Byte), 8 * bytes.length = f.N →
    (∀ j < bytes.length, bytes[j]? = some ((wordOfBytes f.N bytes).extractLsb' (f.N - 8 - 8 * j) 8)) ∧
    bytesOfWord bytes.length (wordOfBytes f.N bytes) = bytes

/-- 30_encoding.md R94: what each line of a program assembles to. -/
def Obligations.AssembledLines : Prop :=
  ∀ (a : Word) (b : SideWord) (k : OpCode) (e : Int) (g r st : Bool),
    assemble (.dec .b32 a.toNat) = some ⟨false, true, 0x0, a, 0⟩ ∧
    assemble (.dec .b64 a.toNat) = some ⟨false, true, 0x1, a, 0⟩ ∧
    assemble (.enc .b32 a.toNat) = some ⟨false, true, 0x2, a, 0⟩ ∧
    assemble (.enc .b64 a.toNat) = some ⟨false, true, 0x3, a, 0⟩ ∧
    assemble (.expdec .b32 a.toNat) = some ⟨false, true, 0x4, a, 0⟩ ∧
    assemble (.expdec .b64 a.toNat) = some ⟨false, true, 0x5, a, 0⟩ ∧
    assemble (.expenc .b32 a.toNat) = some ⟨false, true, 0x6, a, 0⟩ ∧
    assemble (.expenc .b64 a.toNat) = some ⟨false, true, 0x7, a, 0⟩ ∧
    assemble (.mandec .b32 a.toNat e) = some ⟨false, true, 0x8, a, BitVec.ofNat 16 (e % 2 ^ 16).toNat⟩ ∧
    assemble (.mandec .b64 a.toNat e) = some ⟨false, true, 0x9, a, BitVec.ofNat 16 (e % 2 ^ 16).toNat⟩ ∧
    assemble (.rnd .b32 a.toNat g r st) =
      some ⟨false, true, 0xA, a, BitVec.ofNat 16 (4 * g.toNat + 2 * r.toNat + st.toNat)⟩ ∧
    assemble (.rnd .b64 a.toNat g r st) =
      some ⟨false, true, 0xB, a, BitVec.ofNat 16 (4 * g.toNat + 2 * r.toNat + st.toNat)⟩ ∧
    assemble (.raw k.toNat a.toNat b.toNat) = some ⟨false, true, k, a, b⟩ ∧
    (∃ c, assemble .wait = some c ∧ c.rst = false ∧ c.reqValid = false) ∧
    (∃ c, assemble .reset = some c ∧ c.rst = true)

/-- 30_encoding.md R96: the worked encodings, from their text. -/
def Obligations.WorkedEncodings : Prop :=
  (assembleText "DEC32 0xC2AA4000".toList).map PortCycle.cmd = some 0x000000000C2AA40000000 ∧
  (assembleText "RND32 0b10101010101010101010101, 1, 0, 0".toList).map PortCycle.cmd =
    some 0xA00000000005555550004 ∧
  (assembleText "MANDEC32 0x2A4000, 6".toList).map PortCycle.cmd = some 0x800000000002A40000006 ∧
  (assembleText "MANDEC32 0x2A4000, -1".toList).map PortCycle.cmd = some 0x800000000002A4000FFFF

/-! ## Decimal literals -/

/-- The rounding of 30_encoding.md R95, from general knowledge (93_implementation_defined.md G3; log 12 for subnormal
values): a fraction equal to the magnitude of a finite pattern's value rounds to that pattern, without its sign. -/
def Obligations.NearestPatternKeepsExactValues : Prop :=
  ∀ (f : Fmt) (x : BitVec f.N) (num den : Nat) (v : ℚ), 0 < den → nativeValue f x = some v →
    (num : ℚ) / den = |v| → nearestPattern f num den = some (x.toNat % 2 ^ (f.N - 1))

/-- The rounding of 30_encoding.md R95, from general knowledge (93_implementation_defined.md G3; log 12 for subnormal
values): every fraction rounds to the nearest finite pattern, ties to even. That there is no pattern past the largest
finite value is the model's choice (DESIGN CHOICE, log 11). -/
def Obligations.NearestPatternIsNearest : Prop :=
  ∀ (f : Fmt) (num den : Nat), 0 < den →
    (∀ y, nearestPattern f num den = some y → y < 2 ^ (f.N - 1) ∧ IsNearest f y ((num : ℚ) / den)) ∧
    (nearestPattern f num den = none ↔ PastTheLargest f ((num : ℚ) / den))

/-- 30_encoding.md R95: the text of a literal operand reads as the pattern nearest to its value, ties to even. The
grammar and the missing pattern past the largest finite value are the model's choices (PRESUMED and DESIGN CHOICE, log 11),
and so is the sign bit of a literal whose nearest value is 0 (DESIGN CHOICE, log 16). -/
def Obligations.LiteralsReadAsTheirNearestPattern : Prop :=
  ∀ (f : Fmt) (neg : Bool) (whole : List (Fin 10)) (frac : Option (List (Fin 10)))
    (exponent : Option (Bool × List (Fin 10))), whole ++ frac.getD [] ≠ [] → (∀ e ∈ exponent, e.2 ≠ []) →
    let q := literalMagnitude whole frac exponent
    (∀ y, readPattern (literalText f neg whole frac exponent) = some y →
      y < 2 ^ f.N ∧ y.testBit (f.N - 1) = neg ∧ IsNearest f y (if neg then -q else q)) ∧
    (readPattern (literalText f neg whole frac exponent) = none ↔ PastTheLargest f q)
end

