-- ==== Sys2Proof/Laws/Bits.lean ====
section
/-! SUPPORT. The laws of BitSequences: lengths, values, and the conversions between sequences, numbers and words. -/

namespace Sys2Proof.Machine

/-! ## Lengths -/

@[simp] theorem length_zeros (n : Nat) : (zeros n).length = n := by simp [zeros]

@[simp] theorem length_fixedBin (k n : Nat) : (fixedBin k n).length = k := by
  induction k with
  | zero => rfl
  | succ k ih => simp [fixedBin, ih]

@[simp] theorem length_seq {n : Nat} (w : BitVec n) : (seq w).length = n := by simp [seq]

theorem length_slice (S : BitSeq) (i j : Nat) : (slice S i j).length = min j S.length - i := by simp [slice]

/-! ## The value of a sequence -/

theorem binToNat_foldl (S : BitSeq) (acc : Nat) :
    S.foldl (fun acc b => 2 * acc + b.toNat) acc = acc * 2 ^ S.length + binToNat S := by
  induction S generalizing acc with
  | nil => simp [binToNat]
  | cons b rest ih =>
    simp only [binToNat, List.foldl_cons, List.length_cons, ih (2 * acc + b.toNat), ih (2 * 0 + b.toNat)]
    ring

@[simp] theorem binToNat_nil : binToNat [] = 0 := rfl

@[simp] theorem binToNat_cons (b : Bool) (S : BitSeq) :
    binToNat (b :: S) = b.toNat * 2 ^ S.length + binToNat S := by
  rw [binToNat, List.foldl_cons, binToNat_foldl]; simp

@[simp] theorem binToNat_append (S T : BitSeq) : binToNat (S ++ T) = binToNat S * 2 ^ T.length + binToNat T := by
  induction S with
  | nil => simp
  | cons b S ih => simp only [List.cons_append, binToNat_cons, List.length_append, ih]; ring

theorem binToNat_lt (S : BitSeq) : binToNat S < 2 ^ S.length := by
  induction S with
  | nil => simp
  | cons b S ih => cases b <;> simp [pow_succ] <;> omega

@[simp] theorem binToNat_zeros (n : Nat) : binToNat (zeros n) = 0 := by
  induction n with
  | zero => rfl
  | succ n ih => rw [zeros, List.replicate_succ, binToNat_cons]; simpa [zeros] using ih

theorem allZeros_iff (S : BitSeq) : allZeros S = true ↔ binToNat S = 0 := by
  induction S with
  | nil => simp [allZeros]
  | cons b S ih => cases b <;> simp_all [allZeros]

theorem allOnes_iff (S : BitSeq) : allOnes S = true ↔ binToNat S = 2 ^ S.length - 1 := by
  induction S with
  | nil => simp [allOnes]
  | cons b S ih =>
    have h := binToNat_lt S
    have hp := Nat.two_pow_pos S.length
    cases b
    · simp [allOnes, pow_succ]; omega
    · simp only [allOnes, List.all_cons, id_eq, Bool.true_and] at ih ⊢
      rw [ih]; simp [pow_succ]; omega

theorem orReduce_iff (S : BitSeq) : orReduce S = true ↔ binToNat S ≠ 0 := by
  induction S with
  | nil => simp [orReduce]
  | cons b S ih => cases b <;> simp_all [orReduce]

/-- The value of a front part and of the rest behind it. -/
theorem binToNat_take_drop (S : BitSeq) (i : Nat) :
    binToNat S = binToNat (S.take i) * 2 ^ (S.length - i) + binToNat (S.drop i) := by
  conv_lhs => rw [← List.take_append_drop i S]
  rw [binToNat_append]; simp

theorem binToNat_take (S : BitSeq) (i : Nat) :
    binToNat (S.take i) = binToNat S / 2 ^ (S.length - i) := by
  have h1 := binToNat_take_drop S i
  have h2 := binToNat_lt (S.drop i)
  rw [List.length_drop] at h2
  rw [h1, Nat.mul_comm, Nat.mul_add_div (Nat.two_pow_pos _), Nat.div_eq_of_lt h2, Nat.add_zero]

theorem binToNat_drop (S : BitSeq) (i : Nat) :
    binToNat (S.drop i) = binToNat S % 2 ^ (S.length - i) := by
  have h1 := binToNat_take_drop S i
  have h2 := binToNat_lt (S.drop i)
  rw [List.length_drop] at h2
  rw [h1, Nat.mul_comm, Nat.mul_add_mod, Nat.mod_eq_of_lt h2]

/-! ## Numbers and sequences -/

theorem binToNat_fixedBin (k n : Nat) : binToNat (fixedBin k n) = n % 2 ^ k := by
  induction k with
  | zero => simp [fixedBin, Nat.mod_one]
  | succ k ih =>
    rw [fixedBin, binToNat_cons, ih, length_fixedBin, Nat.mod_pow_succ, Nat.toNat_testBit,
      Nat.mul_comm, Nat.add_comm]

theorem fixedBin_mod (k n m : Nat) (h : k ≤ m) : fixedBin k (n % 2 ^ m) = fixedBin k n := by
  induction k with
  | zero => rfl
  | succ k ih => simp only [fixedBin, ih (by omega), Nat.testBit_mod_two_pow]; simp; omega

theorem fixedBin_binToNat (S : BitSeq) : fixedBin S.length (binToNat S) = S := by
  induction S with
  | nil => rfl
  | cons b S ih =>
    have h := binToNat_lt S
    rw [List.length_cons, fixedBin, binToNat_cons]
    congr 1
    · rw [Nat.testBit_eq_decide_div_mod_eq, Nat.mul_comm, Nat.mul_add_div (Nat.two_pow_pos _),
        Nat.div_eq_of_lt h]
      cases b <;> simp
    · rw [← fixedBin_mod S.length _ S.length (le_refl _), Nat.mul_comm, Nat.mul_add_mod, Nat.mod_eq_of_lt h, ih]

/-- Two sequences of one length and one value are equal. -/
theorem bitSeq_ext {S T : BitSeq} (hl : S.length = T.length) (hv : binToNat S = binToNat T) : S = T := by
  rw [← fixedBin_binToNat S, ← fixedBin_binToNat T, hl, hv]

/-! ## Words and sequences -/

@[simp] theorem binToNat_seq {n : Nat} (w : BitVec n) : binToNat (seq w) = w.toNat := by
  rw [seq, binToNat_fixedBin, Nat.mod_eq_of_lt w.isLt]

theorem toNat_word (n : Nat) (S : BitSeq) (h : S.length = n) : (word n S).toNat = binToNat S := by
  rw [word, BitVec.toNat_ofNat, Nat.mod_eq_of_lt (h ▸ binToNat_lt S)]

/-! ## The shortest sequence of a number -/

theorem intBitsLoop_spec (k I : Nat) (h : I < 2 ^ k) :
    binToNat (intBitsLoop k I).reverse = I ∧ (I = 0 → intBitsLoop k I = []) ∧
      (I ≠ 0 → (intBitsLoop k I).reverse.head? = some true) := by
  induction k generalizing I with
  | zero => simp_all [intBitsLoop]
  | succ k ih =>
    rw [intBitsLoop]
    split
    · simp_all
    · rename_i hI
      obtain ⟨h1, h2, h3⟩ := ih (I / 2) (by omega)
      refine ⟨?_, by simp [hI], fun _ => ?_⟩
      · rw [List.reverse_cons, binToNat_append, h1]
        have : I % 2 = 0 ∨ I % 2 = 1 := by omega
        rcases this with h | h <;> simp [h] <;> omega
      · by_cases hz : I / 2 = 0
        · have : I = 1 := by omega
          subst this; rw [h2 hz]; rfl
        · rw [List.reverse_cons, List.head?_append, h3 hz]; rfl

theorem binToNat_natToBin (n : Nat) : binToNat (natToBin n) = n :=
  (intBitsLoop_spec _ n (Nat.lt_log2_self (n := n))).1

@[simp] theorem natToBin_zero : natToBin 0 = [] := rfl

theorem natToBin_head (n : Nat) (h : n ≠ 0) : (natToBin n).head? = some true :=
  (intBitsLoop_spec _ n (Nat.lt_log2_self (n := n))).2.2 h

/-- The bit count brackets the number between two powers of two. -/
theorem bitCount_bounds (n : Nat) (h : n ≠ 0) : 2 ^ (bitCount n - 1) ≤ n ∧ n < 2 ^ bitCount n ∧ 0 < bitCount n := by
  have hh := natToBin_head n h
  have hv := binToNat_natToBin n
  have hlt := binToNat_lt (natToBin n)
  rw [hv] at hlt
  unfold bitCount
  cases hS : natToBin n with
  | nil => rw [hS] at hh; simp at hh
  | cons b rest =>
    rw [hS] at hh hv hlt
    simp only [List.head?_cons, Option.some.injEq] at hh
    subst hh
    rw [binToNat_cons] at hv
    refine ⟨?_, hlt, by simp⟩
    simp at hv ⊢
    omega

theorem bitCount_eq (n k : Nat) (h1 : 2 ^ k ≤ n) (h2 : n < 2 ^ (k + 1)) : bitCount n = k + 1 := by
  have h0 : n ≠ 0 := by have := Nat.two_pow_pos k; omega
  obtain ⟨a, b, c⟩ := bitCount_bounds n h0
  have h3 : bitCount n - 1 < k + 1 := (Nat.pow_lt_pow_iff_right (by decide)).mp (lt_of_le_of_lt a h2)
  have h4 : k < bitCount n := (Nat.pow_lt_pow_iff_right (by decide)).mp (lt_of_le_of_lt h1 b)
  omega

end Sys2Proof.Machine
end

