-- ==== Sys2Proof/Laws/Encoding.lean ====
section
/-! SUPPORT. The laws of the command word's fields. -/

namespace Sys2Proof

/-- Each bit of a packed word is a bit of one of its three fields. -/
theorem getLsbD_packCmd (op : OpCode) (a : Word) (b : SideWord) (i : Nat) :
    (packCmd op a b).getLsbD i =
      if i < 16 then b.getLsbD i else if i - 16 < 64 then a.getLsbD (i - 16) else op.getLsbD (i - 16 - 64) := by
  simp only [packCmd, BitVec.getLsbD_append]

@[simp] theorem opOf_packCmd (op : OpCode) (a : Word) (b : SideWord) : opOf (packCmd op a b) = op := by
  apply BitVec.eq_of_getLsbD_eq
  intro i hi
  rw [opOf, BitVec.getLsbD_extractLsb', getLsbD_packCmd, if_neg (by omega), if_neg (by omega),
    show 80 + i - 16 - 64 = i by omega]
  simp [hi]

@[simp] theorem aOf_packCmd (op : OpCode) (a : Word) (b : SideWord) : aOf (packCmd op a b) = a := by
  apply BitVec.eq_of_getLsbD_eq
  intro i hi
  rw [aOf, BitVec.getLsbD_extractLsb', getLsbD_packCmd, if_neg (by omega), if_pos (by omega),
    show 16 + i - 16 = i by omega]
  simp [hi]

@[simp] theorem bOf_packCmd (op : OpCode) (a : Word) (b : SideWord) : bOf (packCmd op a b) = b := by
  apply BitVec.eq_of_getLsbD_eq
  intro i hi
  rw [bOf, BitVec.getLsbD_extractLsb', getLsbD_packCmd, if_pos (by omega), Nat.zero_add]
  simp [hi]

/-- A command word is the packing of its three fields. -/
@[simp] theorem packCmd_fields (w : CmdWord) : packCmd (opOf w) (aOf w) (bOf w) = w := by
  apply BitVec.eq_of_getLsbD_eq
  intro i hi
  rw [getLsbD_packCmd, opOf, aOf, bOf, BitVec.getLsbD_extractLsb', BitVec.getLsbD_extractLsb',
    BitVec.getLsbD_extractLsb']
  split
  · simp_all
  split
  · simp_all
  · rw [show 80 + (i - 16 - 64) = i by omega]
    have : i - 16 - 64 < 4 := by omega
    simp [this]

/-- A field narrower than operand A is read back from its zero extension. -/
theorem extract_setWidth {n : Nat} (x : BitVec n) (h : n ≤ 64) : (x.setWidth 64).extractLsb' 0 n = x := by
  apply BitVec.eq_of_getLsbD_eq
  intro i hi
  have : i < 64 := by omega
  simp [hi, this]

@[simp] theorem packGrs_g (g r st : Bool) : (packGrs g r st)[2] = g := by revert g r st; decide
@[simp] theorem packGrs_r (g r st : Bool) : (packGrs g r st)[1] = r := by revert g r st; decide
@[simp] theorem packGrs_st (g r st : Bool) : (packGrs g r st)[0] = st := by revert g r st; decide

/-- The word a request cycle presents is the word it was made from. -/
@[simp] theorem Machine.PortCycle.cmd_request (w : CmdWord) : (Machine.PortCycle.request w).cmd = w := packCmd_fields w

end Sys2Proof
end

