-- ==== Sys2Proof/Laws/Flags.lean ====
section
/-! SUPPORT. The laws of status codes and responses. -/

namespace Sys2Proof.Machine

@[simp] theorem respond_ok {n : Nat} (v : BitVec n) : respond (.ok v) = (0, v.setWidth 64) := rfl

@[simp] theorem respond_error {n : Nat} (e : Err) : respond (n := n) (.error e) = (e.code, 0) := rfl

@[simp] theorem unitOut_ok {α : Type} (zero v : α) : unitOut zero (.ok v) = (0, v) := rfl

@[simp] theorem unitOut_error {α : Type} (zero : α) (e : Err) : unitOut zero (.error e) = (e.code, zero) := rfl

/-- A unit's signals, placed on the port, are the response of its result: a zero-extended 0 is 0. -/
theorem place_unitOut {n : Nat} (r : Except Err (BitVec n)) : place (unitOut 0 r) = respond r := by
  cases r <;> simp [place]

/-- Every error has a code of its own, and none is the code of success. -/
theorem Err.code_injective : ∀ e e' : Err, e.code = e'.code → e = e' := by
  intro e e'; cases e <;> cases e' <;> decide

theorem Err.code_ne_ok (e : Err) : e.code ≠ 0 := by cases e <;> decide

/-- A response's status is 0 on success; on an error its result is 0. -/
theorem respond_cases {n : Nat} (r : Except Err (BitVec n)) :
    (∃ v, r = .ok v ∧ respond r = (0, v.setWidth 64)) ∨ ∃ e, r = .error e ∧ respond r = (e.code, 0) := by
  cases r with
  | ok v => exact .inl ⟨v, rfl, rfl⟩
  | error e => exact .inr ⟨e, rfl, rfl⟩

end Sys2Proof.Machine
end

