-- ==== Sys2Proof/Laws/PerInstr.lean ====
section
/-! SUPPORT. The family EncodesInRow: an instruction's command word lies in the row of the opcode table that bears its
mnemonic (30_encoding.md R86, R91). -/

namespace Sys2Proof.Laws.EncodesInRow

/-- A well-formed instruction's command word is selected by its row of the opcode table. -/
def Statement (i : Instr) : Prop :=
  i.wf = true → ∃ row ∈ opRows, row.mnemonic = i.mnemonic ∧ opOf (encode i) &&& opOf row.mask = opOf row.pattern

theorem dec32 (x : BitVec 32) : Statement (.dec32 x) :=
  fun _ => ⟨opRows[0], by decide, rfl, by rw [encode, opOf_packCmd]; decide⟩

theorem dec64 (x : BitVec 64) : Statement (.dec64 x) :=
  fun _ => ⟨opRows[1], by decide, rfl, by rw [encode, opOf_packCmd]; decide⟩

theorem enc32 (x : BitVec 32) : Statement (.enc32 x) :=
  fun _ => ⟨opRows[2], by decide, rfl, by rw [encode, opOf_packCmd]; decide⟩

theorem enc64 (x : BitVec 64) : Statement (.enc64 x) :=
  fun _ => ⟨opRows[3], by decide, rfl, by rw [encode, opOf_packCmd]; decide⟩

theorem expdec32 (E : BitVec 8) : Statement (.expdec32 E) :=
  fun _ => ⟨opRows[4], by decide, rfl, by rw [encode, opOf_packCmd]; decide⟩

theorem expdec64 (E : BitVec 11) : Statement (.expdec64 E) :=
  fun _ => ⟨opRows[5], by decide, rfl, by rw [encode, opOf_packCmd]; decide⟩

theorem expenc32 (n : BitVec 16) : Statement (.expenc32 n) :=
  fun _ => ⟨opRows[6], by decide, rfl, by rw [encode, opOf_packCmd]; decide⟩

theorem expenc64 (n : BitVec 16) : Statement (.expenc64 n) :=
  fun _ => ⟨opRows[7], by decide, rfl, by rw [encode, opOf_packCmd]; decide⟩

theorem mandec32 (M : BitVec 23) (e : BitVec 16) : Statement (.mandec32 M e) :=
  fun _ => ⟨opRows[8], by decide, rfl, by rw [encode, opOf_packCmd]; decide⟩

theorem mandec64 (M : BitVec 52) (e : BitVec 16) : Statement (.mandec64 M e) :=
  fun _ => ⟨opRows[9], by decide, rfl, by rw [encode, opOf_packCmd]; decide⟩

theorem rnd32 (bits : BitVec 23) (g r st : Bool) : Statement (.rnd32 bits g r st) :=
  fun _ => ⟨opRows[10], by decide, rfl, by rw [encode, opOf_packCmd]; decide⟩

theorem rnd64 (bits : BitVec 52) (g r st : Bool) : Statement (.rnd64 bits g r st) :=
  fun _ => ⟨opRows[11], by decide, rfl, by rw [encode, opOf_packCmd]; decide⟩

theorem reserved (k : BitVec 4) (a : BitVec 64) (b : BitVec 16) : Statement (.reserved k a b) := by
  intro h
  refine ⟨opRows[12], by decide, rfl, ?_⟩
  rw [encode, opOf_packCmd]
  revert h
  simp only [Instr.wf]
  revert k
  decide

end Sys2Proof.Laws.EncodesInRow
end

