-- ==== Sys2Proof/Laws/State.lean ====
section
/-! SUPPORT. The laws of the state's named operations: one lemma per field per update. -/

namespace Sys2Proof.Machine

@[simp] theorem State.latch_rspValid (s : State) (rsp : Status × Word) : (s.latch rsp).rspValid = true := rfl
@[simp] theorem State.latch_rspStatus (s : State) (rsp : Status × Word) : (s.latch rsp).rspStatus = rsp.1 := rfl
@[simp] theorem State.latch_rspResult (s : State) (rsp : Status × Word) : (s.latch rsp).rspResult = rsp.2 := rfl
@[simp] theorem State.latch_cfg (s : State) (rsp : Status × Word) : (s.latch rsp).cfg = s.cfg := rfl
@[simp] theorem State.latch_port (s : State) (rsp : Status × Word) : (s.latch rsp).port = s.port := rfl

@[simp] theorem State.idle_rspValid (s : State) : s.idle.rspValid = false := rfl
@[simp] theorem State.idle_rspStatus (s : State) : s.idle.rspStatus = s.rspStatus := rfl
@[simp] theorem State.idle_rspResult (s : State) : s.idle.rspResult = s.rspResult := rfl
@[simp] theorem State.idle_cfg (s : State) : s.idle.cfg = s.cfg := rfl
@[simp] theorem State.idle_port (s : State) : s.idle.port = s.port := rfl

@[simp] theorem State.clear_rspValid (s : State) : s.clear.rspValid = false := rfl
@[simp] theorem State.clear_rspStatus (s : State) : s.clear.rspStatus = 0 := rfl
@[simp] theorem State.clear_rspResult (s : State) : s.clear.rspResult = 0 := rfl
@[simp] theorem State.clear_cfg (s : State) : s.clear.cfg = s.cfg := rfl
@[simp] theorem State.clear_port (s : State) : s.clear.port = s.port := rfl

@[simp] theorem State.advance_rspValid (s : State) : s.advance.rspValid = s.rspValid := rfl
@[simp] theorem State.advance_rspStatus (s : State) : s.advance.rspStatus = s.rspStatus := rfl
@[simp] theorem State.advance_rspResult (s : State) : s.advance.rspResult = s.rspResult := rfl
@[simp] theorem State.advance_cfg (s : State) : s.advance.cfg = s.cfg := rfl
@[simp] theorem State.advance_port (s : State) : s.advance.port = s.port.drop 1 := rfl

@[simp] theorem State.present_rspValid (s : State) (w : CmdWord) : (s.present w).rspValid = s.rspValid := rfl
@[simp] theorem State.present_rspStatus (s : State) (w : CmdWord) : (s.present w).rspStatus = s.rspStatus := rfl
@[simp] theorem State.present_rspResult (s : State) (w : CmdWord) : (s.present w).rspResult = s.rspResult := rfl
@[simp] theorem State.present_cfg (s : State) (w : CmdWord) : (s.present w).cfg = s.cfg := rfl
@[simp] theorem State.present_port (s : State) (w : CmdWord) : (s.present w).port = .request w :: s.port := rfl

/-- Latching twice keeps the second response only. -/
@[simp] theorem State.latch_latch (s : State) (r q : Status × Word) : (s.latch r).latch q = s.latch q := rfl

/-- The signals of an announced cycle. -/
theorem State.signals_cons (s : State) (c : PortCycle) (rest : List PortCycle) (h : s.port = c :: rest) :
    s.signals = c := by simp [State.signals, h]

/-- The signals when no cycle is announced. -/
theorem State.signals_nil (s : State) (h : s.port = []) : s.signals = .idle := by simp [State.signals, h]

@[simp] theorem State.signals_present (s : State) (w : CmdWord) : (s.present w).signals = .request w := rfl

@[simp] theorem State.advance_present (s : State) (w : CmdWord) : (s.present w).advance = s := by
  simp [State.present, State.advance]

end Sys2Proof.Machine
end

