-- ==== Sys2Proof/Laws/Step.lean ====
section
/-! SUPPORT. What an instruction and a step can do, said once: an instruction latches one response, which its operands
and the build parameters alone determine; a step clears, latches or idles. -/

namespace Sys2Proof.Machine

/-- An instruction only latches a response, and the response is the same in every state with these parameters. -/
theorem exec_latches (i : Instr) (p : Params) :
    ∃ rsp : Status × Word, ∀ s : State, s.cfg = p → exec i s = .next (s.latch rsp) := by
  cases i
  case enc32 x => exact ⟨place (encodeUnit p .b32 x), fun s h => by rw [← h]; rfl⟩
  case enc64 x => exact ⟨place (encodeUnit p .b64 x), fun s h => by rw [← h]; rfl⟩
  all_goals exact ⟨_, fun s _ => rfl⟩

/-- What an edge does, by the signals around it. -/
theorem edge_cases (c : PortCycle) (s : State) :
    (c.rst = true ∧ edge c s = .next s.clear) ∨
    (c.rst = false ∧ c.reqValid = true ∧ edge c s = exec (decode c.cmd) s) ∨
    (c.rst = false ∧ c.reqValid = false ∧ edge c s = .next s.idle) := by
  unfold edge
  cases c.rst <;> cases c.reqValid <;> simp

/-- What a step does: the three registers cleared, latched or idled, and one announced cycle gone. -/
theorem step_cases {s t : State} (h : step s = .next t) :
    (s.signals.rst = true ∧ t = s.advance.clear) ∨
    (s.signals.rst = false ∧ s.signals.reqValid = true ∧ exec (decode s.signals.cmd) s.advance = .next t) ∨
    (s.signals.rst = false ∧ s.signals.reqValid = false ∧ t = s.advance.idle) := by
  obtain ⟨h1, h2⟩ | ⟨h1, h2, h3⟩ | ⟨h1, h2, h3⟩ := edge_cases s.signals s.advance
  · rw [step, h2] at h; exact .inl ⟨h1, by injection h with h; exact h.symm⟩
  · rw [step, h3] at h; exact .inr (.inl ⟨h1, h2, h⟩)
  · rw [step, h3] at h; exact .inr (.inr ⟨h1, h2, by injection h with h; exact h.symm⟩)

/-- The request placed by the host's presenting it is the one the next step runs. -/
theorem step_present (s : State) (w : CmdWord) : step (s.present w) = exec (decode w) s := by
  have h : edge (.request w) s = exec (decode (PortCycle.request w).cmd) s := rfl
  rw [step, State.signals_present, State.advance_present, h, PortCycle.cmd_request]

end Sys2Proof.Machine
end

