-- ==== Sys2Proof/Laws/Units.lean ====
section
/-! SUPPORT. What each unit function computes, as arithmetic on numbers: one lemma per shared function, cited by the
proofs in the place of its definition. -/

namespace Sys2Proof.Machine

/-! ## Formats -/

theorem Fmt.width (f : Fmt) : f.N = 1 + f.K + f.W := by cases f <;> rfl

theorem Fmt.emax_eq (f : Fmt) : f.emaxField = 2 ^ f.K - 1 := by cases f <;> rfl

theorem Fmt.expOf_eq (f : Fmt) (x : BitVec f.N) : f.expOf x = x.toNat / 2 ^ f.W % 2 ^ f.K := by
  simp [Fmt.expOf, BitVec.extractLsb'_toNat, Nat.shiftRight_eq_div_pow]

theorem Fmt.manOf_eq (f : Fmt) (x : BitVec f.N) : f.manOf x = x.toNat % 2 ^ f.W := by
  simp [Fmt.manOf, BitVec.extractLsb'_toNat]

theorem Fmt.expOf_lt (f : Fmt) (x : BitVec f.N) : f.expOf x < 2 ^ f.K := by
  rw [Fmt.expOf_eq]; exact Nat.mod_lt _ (Nat.two_pow_pos _)

theorem Fmt.manOf_lt (f : Fmt) (x : BitVec f.N) : f.manOf x < 2 ^ f.W := by
  rw [Fmt.manOf_eq]; exact Nat.mod_lt _ (Nat.two_pow_pos _)

theorem Fmt.signOf_eq (f : Fmt) (x : BitVec f.N) : (f.signOf x).toNat = x.toNat / 2 ^ (f.N - 1) := by
  have h : x.toNat < 2 ^ f.N := x.isLt
  have hN : f.N = (f.N - 1) + 1 := by cases f <;> rfl
  have h2 : x.toNat / 2 ^ (f.N - 1) < 2 := by
    rw [Nat.div_lt_iff_lt_mul (Nat.two_pow_pos _), ← pow_succ', ← hN]; exact h
  rw [Fmt.signOf, BitVec.getLsbD, Nat.toNat_testBit, Nat.mod_eq_of_lt h2]

/-- A pattern's number is made of its three fields. -/
theorem Fmt.toNat_eq (f : Fmt) (x : BitVec f.N) :
    x.toNat = (f.signOf x).toNat * 2 ^ (f.N - 1) + f.expOf x * 2 ^ f.W + f.manOf x := by
  rw [Fmt.signOf_eq, Fmt.expOf_eq, Fmt.manOf_eq]
  have hN : f.N - 1 = f.W + f.K := by cases f <;> rfl
  have h1 := Nat.div_add_mod x.toNat (2 ^ f.W)
  have h2 := Nat.div_add_mod (x.toNat / 2 ^ f.W) (2 ^ f.K)
  rw [Nat.div_div_eq_div_mul, ← pow_add] at h2
  rw [hN, pow_add]
  rw [pow_add] at h2
  calc x.toNat = 2 ^ f.W * (x.toNat / 2 ^ f.W) + x.toNat % 2 ^ f.W := h1.symm
    _ = 2 ^ f.W * (2 ^ f.K * (x.toNat / (2 ^ f.W * 2 ^ f.K)) + x.toNat / 2 ^ f.W % 2 ^ f.K) + x.toNat % 2 ^ f.W := by
      rw [h2]
    _ = _ := by ring

/-! ## Field extractor -/

/-- The extracted fields of a pattern are its word fields. -/
theorem extract_seq (f : Fmt) (x : BitVec f.N) :
    (extract f (seq x)).sign = f.signOf x ∧
    (extract f (seq x)).expField.length = f.K ∧ binToNat (extract f (seq x)).expField = f.expOf x ∧
    (extract f (seq x)).mantissa.length = f.W ∧ binToNat (extract f (seq x)).mantissa = f.manOf x := by
  have hN := f.width
  refine ⟨?_, ?_, ?_, ?_, ?_⟩
  · cases f <;> rfl
  · simp only [extract, length_slice, length_seq]; omega
  · have hl : (List.drop 1 (seq x)).length = f.K + f.W := by simp; omega
    simp only [extract, slice, List.drop_take, binToNat_take, hl, binToNat_drop, length_seq, binToNat_seq, f.expOf_eq]
    rw [show f.K + f.W - (1 + f.K - 1) = f.W by omega, show f.N - 1 = f.W + f.K by omega, pow_add,
      Nat.mod_mul_right_div_self]
  · simp only [extract, length_slice, length_seq]; omega
  · have : List.take f.N (seq x) = seq x := List.take_of_length_le (by simp)
    change binToNat (slice (seq x) (1 + f.K) f.N) = _
    rw [slice, this, binToNat_drop, length_seq, binToNat_seq, f.manOf_eq]
    congr 2; omega

/-! ## mantissa_normalizer, decode direction -/

/-- The scaled fractional sum is the value of the sequence, placed at its weight. -/
theorem fracSum_eq (u : Nat) (lo : BitSeq) (h : lo.length ≤ u) : fracSum u lo = binToNat lo * 2 ^ (u - lo.length) := by
  induction lo generalizing u with
  | nil => simp [fracSum]
  | cons b rest ih =>
    simp only [List.length_cons] at h
    rw [fracSum, ih (u - 1) (by omega), binToNat_cons, List.length_cons, Nat.add_mul, Nat.mul_assoc, ← pow_add]
    congr 2 <;> [congr 1; skip] <;> congr 1 <;> omega

/-- The magnitude in units of 2^-W is `1.M * 2^e` wherever neither special case nor error applies. -/
theorem manValue_eq (f : Fmt) (M : BitSeq) (e : Int) (h : M.length = f.W) :
    manValue f M e =
      if binToNat M = 0 ∧ e = 0 then .ok 0
      else if e < 0 ∨ e > f.W then .error .emptyMantissa
      else .ok ((2 ^ f.W + binToNat M) * 2 ^ e.toNat) := by
  have hz := allZeros_iff M
  simp only [manValue, hz]
  split
  · rfl
  split
  · rfl
  · rename_i h1 h2
    have he : e.toNat ≤ f.W := by omega
    have hlen : (slice M e.toNat f.W).length = f.W - e.toNat := by rw [length_slice]; omega
    have hlo : binToNat (slice M e.toNat f.W) = binToNat M % 2 ^ (f.W - e.toNat) := by
      rw [slice, List.take_of_length_le (by omega), binToNat_drop, h]
    have hhi : binToNat (slice M 0 e.toNat) = binToNat M / 2 ^ (f.W - e.toNat) := by
      rw [slice, List.drop_zero, binToNat_take, h]
    have hhl : (slice M 0 e.toNat).length = e.toNat := by rw [length_slice]; omega
    rw [fracSum_eq _ _ (by omega), hlen, hlo, binToNat_cons, hhl, hhi]
    congr 1
    rw [show f.W - (f.W - e.toNat) = e.toNat by omega]
    have hd := Nat.div_add_mod (binToNat M) (2 ^ (f.W - e.toNat))
    have hp : 2 ^ f.W = 2 ^ (f.W - e.toNat) * 2 ^ e.toNat := by rw [← pow_add]; congr 1; omega
    rw [show (true.toNat : Nat) = 1 from rfl]
    generalize binToNat M / 2 ^ (f.W - e.toNat) = q at *
    generalize binToNat M % 2 ^ (f.W - e.toNat) = r at *
    rw [← hd, hp]; ring

/-! ## mantissa_normalizer, encode direction -/

/-- The produced digits with the remaining fraction make the fraction; the loop stops before its bound only when
nothing remains. -/
theorem fracBitsLoop_spec (D left F : Nat) (h : F < 2 ^ D) :
    (fracBitsLoop D left F).length ≤ left ∧
    ∃ R, F * 2 ^ (fracBitsLoop D left F).length = binToNat (fracBitsLoop D left F) * 2 ^ D + R ∧ R < 2 ^ D ∧
      ((fracBitsLoop D left F).length < left → R = 0) := by
  induction left generalizing F with
  | zero => exact ⟨by simp [fracBitsLoop], F, by simp [fracBitsLoop], h, by simp [fracBitsLoop]⟩
  | succ left ih =>
    rw [fracBitsLoop]
    split
    · subst F; exact ⟨by simp, 0, by simp, by positivity, by simp⟩
    · obtain ⟨h1, R, h2, h3, h4⟩ := ih (2 * F % 2 ^ D) (Nat.mod_lt _ (by positivity))
      refine ⟨by simpa using h1, R, ?_, h3, by simpa using h4⟩
      have hb : (decide (1 ≤ 2 * F / 2 ^ D)).toNat = 2 * F / 2 ^ D := by
        have : 2 * F / 2 ^ D < 2 := by rw [Nat.div_lt_iff_lt_mul (by positivity)]; omega
        generalize 2 * F / 2 ^ D = q at this ⊢
        obtain rfl | rfl : q = 0 ∨ q = 1 := by omega
        all_goals rfl
      have hd := Nat.div_add_mod (2 * F) (2 ^ D)
      rw [List.length_cons, binToNat_cons, hb]
      generalize (fracBitsLoop D left (2 * F % 2 ^ D)) = B at *
      rw [pow_succ, show F * (2 ^ B.length * 2) = (2 * F) * 2 ^ B.length by ring]
      calc 2 * F * 2 ^ B.length = (2 ^ D * (2 * F / 2 ^ D) + 2 * F % 2 ^ D) * 2 ^ B.length := by rw [hd]
        _ = _ := by rw [Nat.add_mul, h2]; ring

/-- The produced digits, padded with zeros to the bound, are the leading digits of the fraction. -/
theorem fracBitsLoop_value (D left F : Nat) (h : F < 2 ^ D) :
    binToNat (fracBitsLoop D left F) * 2 ^ (left - (fracBitsLoop D left F).length) = F * 2 ^ left / 2 ^ D := by
  obtain ⟨h1, R, h2, h3, h4⟩ := fracBitsLoop_spec D left F h
  generalize fracBitsLoop D left F = B at *
  have hp : 2 ^ left = 2 ^ B.length * 2 ^ (left - B.length) := by rw [← pow_add]; congr 1; omega
  by_cases hl : B.length < left
  · rw [hp, ← Nat.mul_assoc, h2, h4 hl, Nat.add_zero, Nat.mul_right_comm, Nat.mul_div_cancel _ (by positivity)]
  · have : B.length = left := by omega
    rw [← this, h2, Nat.mul_comm _ (2 ^ D), Nat.mul_add_div (by positivity), Nat.div_eq_of_lt h3]; simp

/-! ## round_to_even_unit -/

/-- The carry scan adds 1, or finds every bit 1. -/
theorem carryScan_spec (L : BitSeq) :
    (carryScan L = none ∧ binToNat L.reverse + 1 = 2 ^ L.length) ∨
    ∃ B, carryScan L = some B ∧ B.length = L.length ∧ binToNat B.reverse = binToNat L.reverse + 1 := by
  induction L with
  | nil => exact .inl ⟨rfl, rfl⟩
  | cons b rest ih =>
    cases b
    · exact .inr ⟨_, rfl, rfl, by simp⟩
    · obtain ⟨h1, h2⟩ | ⟨B, h1, h2, h3⟩ := ih
      · exact .inl ⟨by simp [carryScan, h1], by simp [pow_succ]; omega⟩
      · exact .inr ⟨false :: B, by simp [carryScan, h1], by simp [h2], by simp; omega⟩

/-- The last bit of a sequence is its value's parity. -/
theorem getLastD_eq_odd (S : BitSeq) : S.getLastD false = decide (binToNat S % 2 = 1) := by
  rcases List.eq_nil_or_concat S with h | ⟨T, b, h⟩
  · subst h; rfl
  · subst h; cases b <;> simp

/-- Rounding adds 1 when the decision is up, and overflows exactly when the sum needs one more bit. -/
theorem roundBits_eq (bits : BitSeq) (g r st : Bool) :
    roundBits bits g r st =
      if roundUp g r st (decide (binToNat bits % 2 = 1)) then
        if binToNat bits + 1 = 2 ^ bits.length then .error .roundingOverflow
        else .ok (fixedBin bits.length (binToNat bits + 1))
      else .ok bits := by
  rw [roundBits, getLastD_eq_odd]
  split
  · obtain ⟨h1, h2⟩ | ⟨B, h1, h2, h3⟩ := carryScan_spec bits.reverse
    · simp only [List.reverse_reverse, List.length_reverse] at h2
      rw [h1, if_pos h2]
    · simp only [List.reverse_reverse, List.length_reverse] at h2 h3
      have hl := binToNat_lt B.reverse
      rw [List.length_reverse, h3, h2] at hl
      rw [h1, if_neg (by omega), ← h3, ← h2]
      have := fixedBin_binToNat B.reverse
      rw [List.length_reverse] at this
      rw [this]
  · rfl

/-- Rounding a buffer rounds its value at bit W, to the nearest and from the middle to the even candidate: the guard bit
is the upper half of the rest, the round and sticky bits say whether the lower half is 0. -/
theorem roundBuffer_parts (f : Fmt) (MB : BitSeq) (k : Nat) (h : MB.length = f.W + k + 1) :
    ∃ g r st : Bool, roundBuffer f MB = roundBits (MB.take f.W) g r st ∧
      binToNat (MB.take f.W) = binToNat MB / 2 ^ (k + 1) ∧
      (g = true ↔ 2 ^ k ≤ binToNat MB % 2 ^ (k + 1)) ∧
      ((r || st) = true ↔ binToNat MB % 2 ^ k ≠ 0) := by
  refine ⟨_, _, _, rfl, ?_, ?_, ?_⟩
  · rw [binToNat_take, h]; congr 2; omega
  · have hd : MB.drop f.W = MB.getD f.W false :: MB.drop (f.W + 1) := by
      rw [List.getD_eq_getElem _ _ (by omega), List.drop_eq_getElem_cons (by omega)]
    have hv := binToNat_drop MB f.W
    have hl := binToNat_lt (MB.drop (f.W + 1))
    rw [show MB.length - f.W = k + 1 by omega, hd, binToNat_cons, List.length_drop,
      show MB.length - (f.W + 1) = k by omega] at hv
    rw [List.length_drop, show MB.length - (f.W + 1) = k by omega] at hl
    rw [← hv]
    cases MB.getD f.W false <;> simp
    omega
  · have hs : slice MB (f.W + 2) MB.length = MB.drop (f.W + 2) := by rw [slice, List.take_length]
    have hv := binToNat_drop MB (f.W + 1)
    rw [show MB.length - (f.W + 1) = k by omega] at hv
    rw [Bool.or_eq_true, orReduce_iff, hs, ← hv]
    by_cases hk : k = 0
    · have h1 : MB.drop (f.W + 1) = [] := List.drop_eq_nil_of_le (by omega)
      have h2 : MB.drop (f.W + 2) = [] := List.drop_eq_nil_of_le (by omega)
      have h3 : MB.getD (f.W + 1) false = false := by
        rw [List.getD_eq_getElem?_getD, List.getElem?_eq_none (by omega)]; rfl
      simp only [h1, h2, h3]; simp
    · have hd : MB.drop (f.W + 1) = MB.getD (f.W + 1) false :: MB.drop (f.W + 2) := by
        rw [List.getD_eq_getElem _ _ (by omega), List.drop_eq_getElem_cons (by omega)]
      rw [hd, binToNat_cons]
      cases MB.getD (f.W + 1) false <;> simp

/-! ## exponent_bias_converter -/

/-- The encoded field has K elements and the biased value, wherever that fits. -/
theorem expEncode_eq (f : Fmt) (n : Nat) (h : n + f.bias ≤ f.emaxField) :
    ∃ E, expEncode f n = .ok E ∧ E.length = f.K ∧ binToNat E = n + f.bias := by
  refine ⟨fixedBin f.K (n + f.bias), ?_, by simp, ?_⟩
  · simp only [expEncode]; rw [if_neg (by omega)]
  · rw [binToNat_fixedBin, Nat.mod_eq_of_lt]
    have := f.emax_eq
    have := Nat.two_pow_pos f.K
    omega

/-! ## Patterns put together -/

/-- The decoded magnitude's pattern as a number. -/
theorem manDecode_ok (f : Fmt) (M : BitSeq) (e : Int) (h : M.length = f.W) (h0 : 0 ≤ e) (hW : e ≤ f.W)
    (hz : ¬ (binToNat M = 0 ∧ e = 0)) :
    ∃ y, manDecode f M e = .ok y ∧ y.toNat = (e.toNat + f.bias) * 2 ^ f.W + binToNat M := by
  have hv : manValue f M e = .ok ((2 ^ f.W + binToNat M) * 2 ^ e.toNat) := by
    rw [manValue_eq f M e h, if_neg hz, if_neg (by omega)]
  have hne : (2 ^ f.W + binToNat M) * 2 ^ e.toNat ≠ 0 := by positivity
  refine ⟨_, by rw [manDecode, hv]; exact if_neg hne, ?_⟩
  have he : (e + f.bias).toNat = e.toNat + f.bias := by omega
  have hb : e.toNat + f.bias < 2 ^ f.K := by
    have : e.toNat ≤ f.W := by omega
    have hW : f.W + f.bias < 2 ^ f.K := by cases f <;> decide
    omega
  rw [toNat_word]
  · simp [h, he, binToNat_fixedBin, Nat.mod_eq_of_lt hb]
  · have := f.width; simp [h]; omega

/-- Replacing the sign bit of a pattern whose own sign bit is 0. -/
theorem withSign_toNat (f : Fmt) (sign : Bool) (y : BitVec f.N) (h : y.toNat < 2 ^ (f.N - 1)) :
    (withSign f sign y).toNat = sign.toNat * 2 ^ (f.N - 1) + y.toNat := by
  have hN := f.width
  rw [withSign, toNat_word]
  · rw [binToNat_cons, binToNat_drop, length_seq, binToNat_seq, Nat.mod_eq_of_lt h]; simp
  · simp; omega

/-- The assembled pattern as a number: the mantissa field stands at the top of its place. -/
theorem assembleFloat_toNat (f : Fmt) (sign : Bool) (Ef Mf : BitSeq) (hE : Ef.length = f.K) (hM : Mf.length ≤ f.W) :
    (assembleFloat f sign Ef Mf).toNat =
      sign.toNat * 2 ^ (f.N - 1) + binToNat Ef * 2 ^ f.W + binToNat Mf * 2 ^ (f.W - Mf.length) := by
  have hN := f.width
  have hT : f.N - (sign :: (Ef ++ Mf)).length = f.W - Mf.length := by simp [hE]; omega
  simp only [assembleFloat, hT]
  rw [toNat_word]
  · simp only [List.cons_append, binToNat_cons, binToNat_append, List.length_append, length_zeros, binToNat_zeros, hE,
      Nat.add_zero, List.append_assoc]
    rw [show f.K + (Mf.length + (f.W - Mf.length)) = f.N - 1 by omega,
      show Mf.length + (f.W - Mf.length) = f.W by omega, Nat.add_assoc]
  · simp [hE]; omega

/-- The split parts make the magnitude, and the fraction is below 1. -/
theorem split_spec (f : Fmt) (x : BitVec f.N) :
    magnitudeUnits f x = splitInt f x * 2 ^ f.fracUnits + splitFrac f x ∧ splitFrac f x < 2 ^ f.fracUnits :=
  ⟨(Nat.div_add_mod' _ _).symm, Nat.mod_lt _ (Nat.two_pow_pos _)⟩

end Sys2Proof.Machine
end

