-- ==== Sys2Proof/Tests/Slice0.lean ====
section
/-! SUPPORT. The model's own tests: the ill-formed term, a written-out word for every constructor, two vectors of
spec/95_test_vectors.md for every operation, and, for every statement with hypotheses, inputs that meet them. Expected
results are the spec's: "V-..." names the row of spec/95_test_vectors.md, R<n> the rule. -/

namespace Sys2Proof.Tests

-- One theorem at a time: each elaboration thread reserves a stack of its own, and many at once reach the memory limit.
set_option Elab.async false

open Sys2Proof Sys2Proof.Machine

/-! ## WellFormed -/

theorem test_wf_refuses_unreserved_code : (Instr.reserved 0xB 0 0).wf = false := by decide
theorem test_wf_takes_first_reserved_code : (Instr.reserved 0xC 0 0).wf = true := by decide

/-! ## Decoding: words written out as `o_aaaaaaaaaaaaaaaa_bbbb` (R85), bits outside R87's set where there are any -/

/-- DEC32 with the upper half of operand A set (P4 step 2, R93), and DEC64 with operand B set. -/
theorem test_decode_decoders :
    decode 0x0FFFFFFFF42AA40000000 = .dec32 0x42AA4000 ∧
    decode 0x1C0554800000000001234 = .dec64 0xC055480000000000 := by decide
theorem test_decode_encoders :
    decode 0x2DEADBEEF3DCCCCCD5678 = .enc32 0x3DCCCCCD ∧
    decode 0x33FB999999999999A0000 = .enc64 0x3FB999999999999A := by decide
theorem test_decode_exponents :
    decode 0x40000000000000F850000 = .expdec32 0x85 ∧
    decode 0x5000000000000FC020000 = .expdec64 0x402 ∧
    decode 0x6000000000001FFFF0000 = .expenc32 0xFFFF ∧
    decode 0x700000000000004010000 = .expenc64 0x401 := by decide
/-- R96: `MANDEC32 0x2A4000, -1`; P2 step 3. -/
theorem test_decode_mantissas :
    decode 0x800000000002A4000FFFF = .mandec32 0x2A4000 0xFFFF ∧
    decode 0x900040083126E978D0003 = .mandec64 0x40083126E978D 3 := by decide
/-- R96: `RND32 0b10101010101010101010101, 1, 0, 0`; V-RND64-03. -/
theorem test_decode_roundings :
    decode 0xA00000000005555550004 = .rnd32 0x555555 true false false ∧
    decode 0xB000AAAAAAAAAAAAA0005 = .rnd64 0xAAAAAAAAAAAAA true false true := by decide
theorem test_decode_reserved : decode 0xF00000000000012345678 = .reserved 0xF 0x1234 0x5678 := by decide

/-- R92: a number of more than 84 bits is no command. -/
theorem test_decode_refuses_longer_word :
    (match decodeCommand (2 ^ 84) with | .error .longerThanOneCommandWord => true | _ => false) = true := by decide

theorem test_decodeTableWord : decodeTableWord 88 0xB000AAAAAAAAAAAAA0004 =
    some (.rnd64 0xAAAAAAAAAAAAA true false false) := by decide

/-- Every row of the opcode table has its own code. -/
theorem test_rows_disjoint : opRows.Pairwise fun a b => a.mask &&& b.mask &&& (a.pattern ^^^ b.pattern) ≠ 0 := by decide

/-! ## One request, from reset -/

/-- The registers after a step. -/
def registers : Host.Outcome State Fault Refusal → Option (Bool × Status × Word)
  | .next t => some (t.rspValid, t.rspStatus, t.rspResult)
  | _ => none

/-- The registers after the first step from reset, the host presenting one command word. -/
def request (w : Nat) : Option (Bool × Status × Word) := registers (step (State.reset.withFetchWord 88 w))

/-- V-DEC32-10: a subnormal pattern read as 1.M; V-DEC32-03: infinity reports the exponent, not the mantissa. -/
theorem test_dec32 :
    request 0x000000000004000000000 = some (true, 0, 0x3FC00000) ∧
    request 0x0000000007F8000000000 = some (true, 2, 0) := by decide +kernel
/-- V-DEC64-11: e = W, the largest exponent that decodes; V-DEC64-12: e = W + 1. -/
theorem test_dec64 :
    request 0x1433FFFFFFFFFFFFF0000 = some (true, 0, 0x433FFFFFFFFFFFFF) ∧
    request 0x143400000000000010000 = some (true, 5, 0) := by decide +kernel
/-- V-ENC32-19: the digits past the margin do not reach the sticky bit; V-ENC32-17: a carry out of the mantissa. -/
theorem test_enc32 :
    request 0x2000000003A0154450000 = some (true, 0, 0x102A) ∧
    request 0x2000000003F7FFFFF0000 = some (true, 8, 0) := by decide
/-- V-ENC64-04: the longest buffer; V-ENC64-08: a value below 1, rounded. -/
theorem test_enc64 :
    request 0x37FEFFFFFFFFFFFFF0000 = some (true, 0, 0x7FEFFFFFFFFFFFFF) ∧
    request 0x33FB999999999999A0000 = some (true, 0, 0x000199999999999A) := by decide +kernel
/-- V-EXPDEC32-02; V-EXPDEC32-01. -/
theorem test_expdec32 :
    request 0x400000000000000010000 = some (true, 0, 0xFFFFFFFFFFFFFF82) ∧
    request 0x400000000000000000000 = some (true, 0, 0) := by decide
/-- V-EXPDEC64-02; V-EXPDEC64-07. -/
theorem test_expdec64 :
    request 0x500000000000000010000 = some (true, 0, 0xFFFFFFFFFFFFFC02) ∧
    request 0x500000000000007FF0000 = some (true, 0, 0x400) := by decide
/-- V-EXPENC32-05: the all-ones field fits; V-EXPENC32-06. -/
theorem test_expenc32 :
    request 0x600000000000000800000 = some (true, 0, 0xFF) ∧
    request 0x600000000000000810000 = some (true, 10, 0) := by decide
/-- V-EXPENC64-04; V-EXPENC64-05. -/
theorem test_expenc64 :
    request 0x700000000000004000000 = some (true, 0, 0x7FF) ∧
    request 0x700000000000004010000 = some (true, 10, 0) := by decide
/-- V-MANDEC32-05; V-MANDEC32-11: M = 0 but e is negative, so no special case. -/
theorem test_mandec32 :
    request 0x800000000002A40000006 = some (true, 0, 0x42AA4000) ∧
    request 0x80000000000000000FFFF = some (true, 5, 0) := by decide
/-- V-MANDEC64-01: the special case; V-MANDEC64-05: e = W. -/
theorem test_mandec64 :
    request 0x900000000000000000000 = some (true, 0, 0) ∧
    request 0x9000FFFFFFFFFFFFF0034 = some (true, 0, 0x433FFFFFFFFFFFFF) := by decide +kernel
/-- V-RND32-11: a carry through 22 ones; V-RND32-05: no guard bit. -/
theorem test_rnd32 :
    request 0xA00000000003FFFFF0006 = some (true, 0, 0x400000) ∧
    request 0xA00000000007FFFFF0003 = some (true, 0, 0x7FFFFF) := by decide
/-- V-RND64-02: a tie with an even last bit; V-RND64-04. -/
theorem test_rnd64 :
    request 0xB000AAAAAAAAAAAAA0004 = some (true, 0, 0xAAAAAAAAAAAAA) ∧
    request 0xB000FFFFFFFFFFFFF0004 = some (true, 8, 0) := by decide
/-- P2 step 6. -/
theorem test_reserved : request 0xC00000000000012345678 = some (true, 11, 0) := by decide

/-! ## Parameters, directives and text -/

/-- A state with other build parameters, the host presenting one command word. -/
def builtWith (p : Params) (w : CmdWord) : State := { State.reset with cfg := p, port := [.request w] }

/-- V-PAR-02: FRAC_MARGIN_32 = 4. -/
theorem test_margin_four :
    registers (step (builtWith ⟨4, 3, 128, 1024⟩ 0x2000000003A0154450000)) = some (true, 0, 0x102B) := by decide
/-- V-PAR-03: INT_MAG_BITS_32 = 64. -/
theorem test_int_mag_64 :
    registers (step (builtWith ⟨3, 3, 64, 1024⟩ 0x2000000005F8000000000)) = some (true, 9, 0) := by decide

/-- A state that holds an error, two cycles announced. -/
def erring (c d : PortCycle) : State := ⟨true, 11, 0, Params.default, [c, d]⟩

/-- P2 step 7: an idle cycle keeps the status. -/
theorem test_wait : step (erring .idle .idle) = .next ⟨false, 11, 0, Params.default, [.idle]⟩ := rfl
/-- R280: a request presented with `rst = 1` is discarded. -/
theorem test_reset_wins : step (erring ⟨true, true, 0x6, 6, 0⟩ .idle) = .next ⟨false, 0, 0, Params.default, [.idle]⟩ := rfl

/-- 93_implementation_defined.md G4: f64(0.1). -/
theorem test_literal_tenth : readPattern "f64(0.1)".toList = some 0x3FB999999999999A := by decide +kernel
/-- 93_implementation_defined.md G4: f32(1e-10). -/
theorem test_literal_exponent : readPattern "f32(1e-10)".toList = some 0x2EDBE6FF := by decide
/-- Log 16: a minus sign is kept where the nearest value is 0. -/
theorem test_literal_negative_zero : readPattern "f32(-1e-60)".toList = some 0x80000000 := by decide +kernel
/-- P1 step 4: a line with its comment. -/
theorem test_line_comment : (assembleText "ENC32 0x3F400000 ; 0.75".toList).map PortCycle.cmd =
    some 0x2000000003F4000000000 := by decide
/-- P2 step 6 and the directives. -/
theorem test_program : assembleProgram ["RESET".toList, ".op 0xC, 0x1234, 0x5678".toList, "WAIT".toList] =
    some [.reset, ⟨false, true, 0xC, 0x1234, 0x5678⟩, .idle] := by decide

/-! ## Inputs that meet the statements' hypotheses -/

theorem witness_ResetCyclesClearTheRegisters :
    ∃ (s : State) (resets rest : List PortCycle), resets ≠ [] ∧ (∀ c ∈ resets, c.rst = true) ∧
      s.port = resets ++ rest ∧ s.rspStatus ≠ 0 :=
  ⟨erring .reset .idle, [.reset], [.idle], by decide, by decide, rfl, by decide⟩

/-- One announced cycle of each kind (reset, request, idle). -/
theorem witness_EdgeIsTheStepFunction :
    ∃ (s t u : State) (c d e : PortCycle), s.port = c :: [.idle] ∧ c.rst = true ∧
      t.port = d :: [.idle] ∧ d.rst = false ∧ d.reqValid = true ∧ u.port = e :: [.idle] ∧ e.rst = false ∧ e.reqValid = false :=
  ⟨erring .reset .idle, erring (.request 0) .idle, erring .idle .idle, _, _, _,
    rfl, rfl, rfl, rfl, rfl, rfl, rfl, rfl⟩

theorem witness_StepRunsTheDecodedInstruction :
    ∃ (s : State) (c : PortCycle) (rest : List PortCycle), s.port = c :: rest ∧ c.rst = false ∧ c.reqValid = true ∧
      decode (packCmd c.reqOp c.reqA c.reqB) = .dec32 0xC2AA4000 :=
  ⟨erring (.request 0x000000000C2AA40000000) .idle, _, _, rfl, rfl, rfl, by decide⟩

theorem witness_ExhaustedPortIdles : ∃ s : State, s.port = [] ∧ s.rspValid = true :=
  ⟨⟨true, 0, 7, Params.default, []⟩, rfl, rfl⟩

theorem witness_ResponseHeldUntilOverwritten :
    ∃ (s : State) (before idles rest : List PortCycle) (c : PortCycle), c.rst = false ∧ c.reqValid = true ∧
      (∀ d ∈ idles, d.rst = false ∧ d.reqValid = false) ∧ s.port = before ++ c :: (idles ++ rest) ∧
      before ≠ [] ∧ idles ≠ [] :=
  ⟨⟨true, 0, 7, Params.default, [.reset, .request 0, .idle]⟩, [.reset], [.idle], [], .request 0,
    rfl, rfl, by decide, rfl, by decide, by decide⟩

theorem witness_ResponseComesAfterLatency :
    ∃ (s : State) (i : Instr) (rest : List PortCycle), i.wf = true ∧ s.port = .request (encode i) :: rest :=
  ⟨erring (.request (encode (.enc32 0x3F400000))) .idle, .enc32 0x3F400000, _, rfl, rfl⟩

theorem witness_ResponseDependsOnTheRequestAlone : ∃ s s' : State, s.cfg = s'.cfg ∧ s ≠ s' :=
  ⟨.reset, erring .idle .idle, rfl, by decide⟩

/-- A coherent state with an error in it, and the step it takes. -/
theorem witness_StepKeepsCoherence : ∃ s t : State, s.Coherent ∧ s.rspStatus ≠ 0 ∧ step s = .next t :=
  ⟨erring .idle .idle, _, ⟨⟨.RESERVED, by decide⟩, fun _ => rfl⟩, by decide, rfl⟩

/-- SplitError stands among an encoder's codes below the default width only. -/
theorem witness_EveryListedCodeIsWritten :
    (9 : Status) ∈ allowedCodes ⟨3, 3, 127, 1024⟩ .ENC32 ∧ (9 : Status) ∉ allowedCodes Params.default .ENC32 ∧
      (8 : Status) ∈ allowedCodes Params.default .ENC64 := by decide

theorem witness_DecodeOfEncode : (Instr.reserved 0xC 0 0).wf = true ∧ (Instr.mandec32 0x7FFFFF 0x8000).wf = true := by
  decide

theorem witness_EncodeOfDecodeClearsIgnoredBits :
    (∃ row ∈ opRows, row.selects 0x0FFFFFFFF42AA40001234 = true ∧ row.mnemonic ≠ .RESERVED) ∧
    ∃ row ∈ opRows, row.selects 0xC00000000000012345678 = true ∧ row.mnemonic = .RESERVED :=
  ⟨⟨opRows[0], by decide, by decide, by decide⟩, ⟨opRows[12], by decide, by decide, by decide⟩⟩

theorem witness_EveryWordSelectsOneRow :
    (0xE00000000000000000001 : CmdWord).extractLsb' 80 4 = (0xE00000000000000000002 : CmdWord).extractLsb' 80 4 ∧
      opRows[12].selects 0xE00000000000000000001 = true := by decide

/-- P4 step 2 beside the same request without its ignored bits, and two reserved requests with the same code (R87 lists
no operand bit for them). -/
theorem witness_IgnoredBitsHaveNoEffect :
    (∃ row ∈ opRows, ∃ w w' : CmdWord, row.selects w = true ∧ row.reads &&& w = row.reads &&& w' ∧ w ≠ w') ∧
    (opRows[12].selects 0xC00000000000012345678 = true ∧
      opRows[12].reads &&& 0xC00000000000012345678 = opRows[12].reads &&& 0xC00000000000000000000) :=
  ⟨⟨opRows[0], by decide, 0x0FFFFFFFF42AA40000000, 0x00000000042AA40000000, by decide, by decide, by decide⟩, by decide⟩

theorem witness_ReservedAnswersIllegalOp : 12 ≤ (0xC : OpCode).toNat ∧ 12 ≤ (0xF : OpCode).toNat ∧ ¬ 12 ≤ (0xB : OpCode).toNat := by
  decide

/-- One field set for each check, and one that passes. -/
theorem witness_ValidatorOrder :
    ([true] : BitSeq).length ≠ Fmt.b32.K ∧
    ((fixedBin 8 255).length = Fmt.b32.K ∧ ∀ b ∈ fixedBin 8 255, b = true) ∧
    ((fixedBin 8 254).length = Fmt.b32.K ∧ (∃ b ∈ fixedBin 8 254, b = false) ∧ ∀ b ∈ zeros 23, b = false) ∧
    ∃ b ∈ fixedBin 23 1, b = true := by decide

/-- The largest n, the field BIAS, the field 0, and the fields 1 and BIAS - 1. -/
theorem witness_ExponentRoundTrips :
    128 ≤ Fmt.b32.emaxField - Fmt.b32.bias ∧
    ((fixedBin 8 127).length = Fmt.b32.K ∧ Fmt.b32.bias ≤ binToNat (fixedBin 8 127)) ∧
    (zeros 8).length = Fmt.b32.K ∧ binToNat (zeros 8) = 0 ∧
    (0 < binToNat (fixedBin 8 1) ∧ binToNat (fixedBin 8 126) < Fmt.b32.bias ∧ (fixedBin 8 126).length = Fmt.b32.K) := by
  decide

theorem witness_ExponentFitsItsSignal : (fixedBin 11 2047).length = Fmt.b64.K := by decide

/-- The ends of the exponent's range, with M = 0 at the upper one; the special case lies outside. -/
theorem witness_MagnitudeIsExact :
    (fixedBin 23 1).length = Fmt.b32.W ∧ (zeros 23).length = Fmt.b32.W ∧
    ((0 : Int) ≤ 0 ∧ (0 : Int) ≤ Fmt.b32.W ∧ ¬ (binToNat (fixedBin 23 1) = 0 ∧ (0 : Int) = 0)) ∧
    ((0 : Int) ≤ 23 ∧ (23 : Int) ≤ Fmt.b32.W ∧ ¬ (binToNat (zeros 23) = 0 ∧ (23 : Int) = 0)) := by decide

theorem witness_MagnitudePatternHasItsValue : ∃ M : BitSeq, M.length = Fmt.b32.W ∧
    (∃ y, manDecode .b32 M 23 = .ok y) ∧ manDecode .b32 M 24 = .error .emptyMantissa :=
  ⟨fixedBin 23 1, by decide, ⟨_, rfl⟩, rfl⟩

theorem witness_IntegerExpansion : 0 < 85 ∧ binToNat (true :: fixedBin 6 21) = 85 := by decide

/-- 0.125 of R165 is shorter than the bound; the smallest subnormal runs to it. -/
theorem witness_FractionExpansion :
    (2 ^ 146 < 2 ^ Fmt.b32.fracUnits ∧ (fracBits Params.default .b32 (2 ^ 146)).length < 27) ∧
    (1 < 2 ^ Fmt.b32.fracUnits ∧ (fracBits Params.default .b32 1).length = 27) := by decide

/-- 85.125 has an integer part, 0.5 has none. -/
theorem witness_BufferBounds :
    Fmt.expOf .b32 0x42AA4000 ≠ Fmt.b32.emaxField ∧ 1 ≤ splitInt .b32 0x42AA4000 ∧
    Fmt.expOf .b32 0x3F000000 ≠ Fmt.b32.emaxField ∧ splitInt .b32 0x3F000000 = 0 := by decide

/-- The shortest buffer with a guard bit. -/
theorem witness_BufferRoundsToNearestEven : ∃ (MB : BitSeq) (k : Nat), MB.length = Fmt.b32.W + k + 1 ∧ k = 0 :=
  ⟨fixedBin 24 1, 0, by decide, rfl⟩

/-- An input for each row of R203's table, at the ends of its range. -/
theorem witness_DecoderDomain :
    Fmt.expOf .b32 0x7F800000 = Fmt.b32.emaxField ∧
    (Fmt.expOf .b32 0x7F000000 ≠ Fmt.b32.emaxField ∧ Fmt.manOf .b32 0x7F000000 = 0) ∧
    (1 ≤ Fmt.expOf .b32 0x00800001 ∧ Fmt.expOf .b32 0x3F000001 < Fmt.b32.bias ∧ Fmt.manOf .b32 0x00800001 ≠ 0) ∧
    (Fmt.b32.bias + Fmt.b32.W < Fmt.expOf .b32 0x4B800001 ∧ Fmt.expOf .b32 0x7F7FFFFF < Fmt.b32.emaxField ∧
      Fmt.manOf .b32 0x4B800001 ≠ 0) ∧
    (Fmt.manOf .b32 0x4B000001 ≠ 0 ∧ Fmt.expOf .b32 0x4B000001 = Fmt.b32.bias + Fmt.b32.W) := by decide

theorem witness_DecodedPatternAndValue : decodeFloat .b32 0xC2AA4000 = .ok 0xC2AA4000 := by decide +kernel

/-- Native values used below: 1.5, 0.5 and 2^64. -/
theorem native_b32_three_halves : nativeValue .b32 0x3FC00000 = some (3 / 2) := by
  have h1 : Fmt.expOf .b32 0x3FC00000 = 127 := by decide
  have h2 : Fmt.manOf .b32 0x3FC00000 = 4194304 := by decide
  have h3 : Fmt.signOf .b32 0x3FC00000 = false := by decide
  rw [nativeValue, h1, h2, h3]
  norm_num [signValue]

theorem native_b32_half : nativeValue .b32 0x3F000000 = some (1 / 2) := by
  have h1 : Fmt.expOf .b32 0x3F000000 = 126 := by decide
  have h2 : Fmt.manOf .b32 0x3F000000 = 0 := by decide
  have h3 : Fmt.signOf .b32 0x3F000000 = false := by decide
  rw [nativeValue, h1, h2, h3]
  norm_num [signValue]

theorem native_b32_two_pow_64 : nativeValue .b32 0x5F800000 = some (2 ^ 64) := by
  have h1 : Fmt.expOf .b32 0x5F800000 = 191 := by decide
  have h2 : Fmt.manOf .b32 0x5F800000 = 0 := by decide
  have h3 : Fmt.signOf .b32 0x5F800000 = false := by decide
  rw [nativeValue, h1, h2, h3]
  norm_num [signValue]

theorem witness_SplitIsExact : ∃ v, nativeValue .b32 0x3FC00000 = some v := ⟨_, native_b32_three_halves⟩

/-- V-PAR-03 at its boundary, and the default width. -/
theorem witness_IntegerRange : ∃ (p : Params) (v : ℚ), nativeValue .b32 0x5F800000 = some v ∧
    (2 : ℤ) ^ Fmt.intMagBits .b32 p ≤ ⌊|v|⌋ ∧
    Fmt.intMagBits .b32 Params.default ≤ Fmt.intMagBits .b32 Params.default :=
  ⟨⟨3, 3, 64, 1024⟩, _, native_b32_two_pow_64, by norm_num [Fmt.intMagBits], le_refl _⟩

theorem witness_ValuesFromOneEncodeToThemselves : ∃ v : ℚ, nativeValue .b32 0x3FC00000 = some v ∧ 1 ≤ |v| ∧
    |v| < 2 ^ Fmt.intMagBits .b32 ⟨3, 3, 1, 1024⟩ ∧
    Fmt.intMagBits .b32 Params.default ≤ Fmt.intMagBits .b32 Params.default := by
  refine ⟨_, native_b32_three_halves, ?_, ?_, le_refl _⟩ <;> norm_num [Fmt.intMagBits, abs_of_pos]

/-- A value below 1 that encodes, and 1 - 2^-24, whose carry has no room (R233). -/
theorem witness_ValuesBelowOneEncodeTheirFraction : ∃ v : ℚ, nativeValue .b32 0x3F000000 = some v ∧ |v| < 1 ∧
    roundedFraction 3 (2 ^ 26) ≠ 2 ^ 23 ∧ roundedFraction 3 (2 ^ 27 - 2 ^ 3) = 2 ^ 23 := by
  refine ⟨_, native_b32_half, ?_, by decide, by decide⟩
  norm_num [abs_of_pos]

theorem witness_CodecRoundTrip : ∃ v : ℚ, Fmt.b32.W + 1 ≤ Fmt.intMagBits .b32 Params.default ∧
    nativeValue .b32 0x3FC00000 = some v ∧ 1 ≤ |v| ∧ |v| < 2 ^ (Fmt.b32.W + 1) ∧ Fmt.manOf .b32 0x3FC00000 ≠ 0 := by
  refine ⟨_, by decide, native_b32_three_halves, ?_, ?_, by decide⟩ <;> norm_num [abs_of_pos]

theorem witness_SequenceAndWordAreInverse : (fixedBin 11 5).length = 11 ∧ 10 < 11 := by decide

/-- R62's own example, [0x7f, 0x80, 0x00, 0x00]. -/
theorem witness_ByteListsAreBigEndian :
    8 * ([0x7F, 0x80, 0x00, 0x00] : List Byte).length = Fmt.b32.N ∧ wordOfBytes 32 [0x7F, 0x80, 0x00, 0x00] = 0x7F800000 := by
  decide

/-- The shortest buffer with a guard bit; and R39's values that come with an error: infinity's fields, and n and I
beside the largest that succeed. -/
theorem witness_UnitSignals :
    (fixedBin 24 1).length = Fmt.b32.W + 0 + 1 ∧
    fieldUnit .b32 0x7F800000 = (2, { s := false, E := 0, M := 0 }) ∧
    (expEncodeUnit .b32 128 = (0, 0xFF) ∧ expEncodeUnit .b32 129 = (10, 0)) ∧
    (normalizeUnit ⟨3, 3, 130, 1024⟩ .b32 (BitVec.ofNat 130 (2 ^ 129)) 0).1 = 10 ∧
    (normalizeUnit ⟨3, 3, 130, 1024⟩ .b32 (BitVec.ofNat 130 (2 ^ 129 - 1)) 0).1 = 0 := by decide +kernel

theorem witness_NearestPatternIsNearest : 0 < 10 ∧ nearestPattern .b32 1 10 = some 0x3DCCCCCD ∧
    nearestPattern .b32 (2 ^ 128) 1 = none := by decide +kernel

/-- A literal with a sign, a point and an exponent, and the digits' value. -/
theorem witness_LiteralsReadAsTheirNearestPattern :
    literalText .b32 true [1] (some [5]) (some (true, [2])) = "f32(-1.5e-2)".toList ∧
    ([1] ++ (some [5]).getD [] : List (Fin 10)) ≠ [] ∧ ∀ e ∈ some (true, ([2] : List (Fin 10))), e.2 ≠ [] := by
  decide

theorem witness_NearestPatternKeepsExactValues : ∃ v : ℚ, 0 < 2 ∧ nativeValue .b32 0x3FC00000 = some v ∧
    ((3 : ℕ) : ℚ) / (2 : ℕ) = |v| := by
  refine ⟨_, by decide, native_b32_three_halves, ?_⟩
  norm_num [abs_of_pos]

end Sys2Proof.Tests
end

section
/-! Words and bit sequences convert into each other without loss, index 0 being the most significant bit
(00_scope.md R14). -/

namespace Sys2Proof.Machine

theorem getElem?_fixedBin (k n i : Nat) (h : i < k) : (fixedBin k n)[i]? = some (n.testBit (k - 1 - i)) := by
  induction k generalizing i with
  | zero => omega
  | succ k ih =>
    cases i with
    | zero => simp [fixedBin]
    | succ i =>
      rw [fixedBin, List.getElem?_cons_succ, ih i (by omega)]
      congr 2
      omega

theorem getElem?_seq {n : Nat} (w : BitVec n) (i : Nat) (h : i < n) :
    (seq w)[i]? = some (w.getLsbD (n - 1 - i)) :=
  getElem?_fixedBin n w.toNat i h

/-- Both words have the value of the sequence `seq w`. -/
@[simp] theorem word_seq {n : Nat} (w : BitVec n) : word n (seq w) = w :=
  BitVec.eq_of_toNat_eq (by rw [toNat_word n _ (length_seq w), binToNat_seq])

/-- Both sequences have n elements and one value. -/
theorem seq_word (n : Nat) (S : BitSeq) (h : S.length = n) : seq (word n S) = S :=
  bitSeq_ext (by rw [length_seq, h]) (by rw [binToNat_seq, toNat_word n S h])

/-- Settles O53: the length, the index of each element and the two round trips, each by its own lemma. -/
theorem sequenceAndWordAreInverse : Obligations.SequenceAndWordAreInverse := by
  intro n
  exact ⟨fun w => ⟨length_seq w, word_seq w, getElem?_seq w⟩, seq_word n⟩

end Sys2Proof.Machine
end

section
/-! The rising edge (10_state.md R35) in terms of the state's fields, and what every instruction leaves unchanged. -/

namespace Sys2Proof.Machine

/-! ## The reset state -/

/-- Settles O1: the three fields as `State.reset` writes them. -/
theorem resetRegistersAreZero : Obligations.ResetRegistersAreZero := ⟨rfl, rfl, rfl⟩

/-- Settles O11: status 0 is among the codes of every operation but the reserved one, and it is no error. -/
theorem resetIsCoherent : Obligations.ResetIsCoherent :=
  ⟨⟨.DEC32, by decide⟩, fun herr => absurd rfl herr⟩

/-! ## The step, by the next announced cycle -/

/-- The step with no cycle announced: the edge sees the signals of an idle cycle, and none is used up. -/
theorem step_of_port_nil {s : State} (hport : s.port = []) : step s = .next s.idle := by
  have hadv : s.advance = s := by rw [State.advance, hport, List.drop_nil, ← hport]
  rw [step, State.signals_nil s hport, hadv]
  rfl

/-- The step with a cycle announced: an edge with that cycle's signals, the cycle gone. -/
theorem step_of_port_cons {s : State} {c : PortCycle} {rest : List PortCycle} (hport : s.port = c :: rest) :
    step s = edge c { s with port := rest } := by
  rw [step, State.signals_cons s c rest hport, State.advance, hport, List.drop_one, List.tail_cons]

theorem edge_of_rst {c : PortCycle} (s : State) (hrst : c.rst = true) : edge c s = .next s.clear := by
  simp [edge, hrst]

theorem edge_of_request {c : PortCycle} (s : State) (hrst : c.rst = false) (hreq : c.reqValid = true) :
    edge c s = exec (decode (packCmd c.reqOp c.reqA c.reqB)) s := by
  simp [edge, hrst, hreq, PortCycle.cmd]

theorem edge_of_idle {c : PortCycle} (s : State) (hrst : c.rst = false) (hreq : c.reqValid = false) :
    edge c s = .next s.idle := by
  simp [edge, hrst, hreq]

/-- Settles O5: an exhausted port presents an idle cycle. -/
theorem exhaustedPortIdles : Obligations.ExhaustedPortIdles := fun _ hport => step_of_port_nil hport

/-- Settles O4: the step is the edge of the announced cycle, which is a request. -/
theorem stepRunsTheDecodedInstruction : Obligations.StepRunsTheDecodedInstruction := by
  rintro s c rest i hport hrst hreq rfl
  rw [step_of_port_cons hport, edge_of_request _ hrst hreq]

/-! ## The response of a request -/

/-- Settles O9: an instruction only latches its response. -/
theorem instructionsWriteOnlyTheResponse : Obligations.InstructionsWriteOnlyTheResponse := by
  intro i s
  obtain ⟨rsp, hexec⟩ := exec_latches i s.cfg
  exact ⟨s.latch rsp, hexec s rfl, rfl, rfl, rfl⟩

/-- The decoded instruction's meaning, which reads its unit's output signals, latches the pair `CORE(op, a, b)` of
30_encoding.md R88: the two tables agree row by row, an error's values being 0 before and after their placement. -/
theorem exec_decode_packCmd (op : OpCode) (a : Word) (b : SideWord) (s : State) :
    exec (decode (packCmd op a b)) s = .next (s.latch (coreFunction s.cfg op a b)) := by
  rw [decode, coreFunction, opOf_packCmd, aOf_packCmd, bOf_packCmd]
  generalize op.toNat = code
  match code with
  | 0x0 => simp only [exec, execDec32, decodeUnit, place_unitOut]
  | 0x1 => simp only [exec, execDec64, decodeUnit, place_unitOut]
  | 0x2 => simp only [exec, execEnc32, encodeUnit, place_unitOut]
  | 0x3 => simp only [exec, execEnc64, encodeUnit, place_unitOut]
  | 0x4 => rfl
  | 0x5 => rfl
  | 0x6 => simp only [exec, execExpenc32, expEncodeUnit, place_unitOut]
  | 0x7 => simp only [exec, execExpenc64, expEncodeUnit, place_unitOut]
  | 0x8 => simp only [exec, execMandec32, manDecodeUnit, place_unitOut]
  | 0x9 => simp only [exec, execMandec64, manDecodeUnit, place_unitOut]
  | 0xA => simp only [exec, execRnd32, roundBitsUnit, place_unitOut]
  | 0xB => simp only [exec, execRnd64, roundBitsUnit, place_unitOut]
  | _ + 12 => rfl

/-- Settles O3: reset, request and idle edge, each by its equation; a request latches `CORE(op, a, b)`. -/
theorem edgeIsTheStepFunction : Obligations.EdgeIsTheStepFunction := by
  intro s c rest hport
  rw [step_of_port_cons hport]
  cases hrst : c.rst with
  | true => exact edge_of_rst _ hrst
  | false =>
    cases hreq : c.reqValid with
    | true => rw [edge_of_request _ hrst hreq, exec_decode_packCmd]; rfl
    | false => exact edge_of_idle _ hrst hreq

end Sys2Proof.Machine
end

section
/-! The exponent converter's two directions as arithmetic on the field's number (41_exponent_bias_converter.md R130,
R132). -/

namespace Sys2Proof.Machine

/-- The bias, and with it every unbiased exponent, lies well within the signed 16-bit numbers. -/
theorem Fmt.bias_bounds (f : Fmt) : 1 ≤ f.bias ∧ f.bias < f.emaxField ∧ f.emaxField < 2 ^ 15 := by
  cases f <;> decide

theorem binToNat_le_emaxField (f : Fmt) (E : BitSeq) (hE : E.length = f.K) : binToNat E ≤ f.emaxField := by
  have hlt := binToNat_lt E
  rw [hE] at hlt
  rw [f.emax_eq]
  omega

/-- 10_state.md R40: the bounds of an unbiased exponent. -/
theorem expDecode_bounds (f : Fmt) (E : BitSeq) (hE : E.length = f.K) :
    -((f.bias : Int) - 1) ≤ expDecode f E ∧ expDecode f E ≤ (f.emaxField : Int) - f.bias := by
  have hmax := binToNat_le_emaxField f E hE
  obtain ⟨hpos, hlt, -⟩ := f.bias_bounds
  simp only [expDecode]
  split <;> omega

theorem toInt_expDecodeSignal (f : Fmt) (E : BitSeq) (hE : E.length = f.K) :
    (expDecodeSignal f E).toInt = expDecode f E := by
  obtain ⟨hlo, hhi⟩ := expDecode_bounds f E hE
  obtain ⟨hpos, hlt, hmax⟩ := f.bias_bounds
  rw [expDecodeSignal, BitVec.toInt_ofInt]
  exact Int.bmod_eq_of_le (by omega) (by omega)

/-- Settles O38: the bounds, and the exact signal that they allow. -/
theorem exponentFitsItsSignal : Obligations.ExponentFitsItsSignal :=
  fun f E hE => ⟨toInt_expDecodeSignal f E hE, expDecode_bounds f E hE⟩

end Sys2Proof.Machine
end

section
/-! Unit functions as closed forms on the numbers of their inputs: field extractor and validator, exponent converter,
mantissa normalizer, rounding unit. -/

namespace Sys2Proof.Machine

theorem word_fixedBin (k n : Nat) : word k (fixedBin k n) = BitVec.ofNat k n :=
  BitVec.eq_of_toNat_eq (by
    rw [toNat_word k _ (length_fixedBin k n), binToNat_fixedBin, BitVec.toNat_ofNat])

theorem fixedBin_zero (k : Nat) : fixedBin k 0 = zeros k :=
  bitSeq_ext (by simp) (by rw [binToNat_fixedBin, binToNat_zeros, Nat.zero_mod])

/-- A response carries the number of its unit's value. -/
theorem respond_ok_eq_ofNat {n : Nat} (y : BitVec n) : respond (.ok y) = (0, BitVec.ofNat 64 y.toNat) := by
  rw [respond_ok, BitVec.ofNat_toNat]

/-! ## Field extractor and validator -/

/-- 40_field_extractor_validator.md R115 on the number of a pattern's fields. -/
theorem validate_extract (f : Fmt) (x : BitVec f.N) :
    validate f (extract f (seq x)) =
      if f.expOf x = f.emaxField then .error .exponentAllOnes
      else if f.manOf x = 0 then .error .mantissaAllZeros
      else .ok () := by
  obtain ⟨-, hlenE, hE, -, hM⟩ := extract_seq f x
  simp only [validate, hlenE, allOnes_iff, allZeros_iff, hE, hM, ← f.emax_eq, ne_eq, not_true_eq_false, if_false]

/-- The fields' words are the slices of the pattern. -/
theorem word_extract (f : Fmt) (x : BitVec f.N) :
    word f.K (extract f (seq x)).expField = x.extractLsb' f.W f.K ∧
    word f.W (extract f (seq x)).mantissa = x.extractLsb' 0 f.W := by
  obtain ⟨-, hlenE, hE, hlenM, hM⟩ := extract_seq f x
  exact ⟨BitVec.eq_of_toNat_eq ((toNat_word _ _ hlenE).trans hE),
    BitVec.eq_of_toNat_eq ((toNat_word _ _ hlenM).trans hM)⟩

theorem fieldUnit_eq (f : Fmt) (x : BitVec f.N) :
    fieldUnit f x =
      if f.expOf x = f.emaxField then (2, { s := false, E := 0, M := 0 })
      else if f.manOf x = 0 then (3, { s := false, E := 0, M := 0 })
      else (0, { s := f.signOf x, E := x.extractLsb' f.W f.K, M := x.extractLsb' 0 f.W }) := by
  obtain ⟨hs, -⟩ := extract_seq f x
  obtain ⟨hE, hM⟩ := word_extract f x
  simp only [fieldUnit, validate_extract, hs, hE, hM]
  split
  · rfl
  split <;> rfl

/-! ## exponent_bias_converter -/

theorem toInt_expDecodeUnit (f : Fmt) (E : BitVec f.K) :
    (expDecodeUnit f E).toInt = if E.toNat = 0 then 0 else (E.toNat : Int) - f.bias := by
  rw [expDecodeUnit, toInt_expDecodeSignal f (seq E) (length_seq E), expDecode, binToNat_seq]

/-- The sum with the bias fits the field exactly up to `EMAX_FIELD - BIAS`. -/
theorem expEncode_eq_ite (f : Fmt) (n : Nat) :
    expEncode f n =
      if f.emaxField - f.bias < n then .error .exponentOverflow else .ok (fixedBin f.K (n + f.bias)) := by
  obtain ⟨-, hlt, -⟩ := f.bias_bounds
  have hiff : n + f.bias > f.emaxField ↔ f.emaxField - f.bias < n := by omega
  simp only [expEncode, hiff]

theorem expEncodeUnit_eq (f : Fmt) (n : BitVec 16) :
    expEncodeUnit f n =
      if f.emaxField - f.bias < n.toNat then (10, 0) else (0, BitVec.ofNat f.K (n.toNat + f.bias)) := by
  rw [expEncodeUnit, expEncode_eq_ite]
  split
  · rfl
  · rw [Except.map, word_fixedBin, unitOut_ok]

/-! ## mantissa_normalizer, decode direction -/

theorem manDecode_of_zero (f : Fmt) (M : BitSeq) (hlen : M.length = f.W) (hM : binToNat M = 0) :
    manDecode f M 0 = .ok 0 := by
  rw [manDecode, manValue_eq f M 0 hlen, if_pos ⟨hM, rfl⟩]
  rfl

theorem manDecode_of_out_of_range (f : Fmt) (M : BitSeq) (e : Int) (hlen : M.length = f.W) (he : ¬ (0 ≤ e ∧ e ≤ f.W)) :
    manDecode f M e = .error .emptyMantissa := by
  rw [manDecode, manValue_eq f M e hlen, if_neg (by omega), if_pos (by omega)]

/-- 42_mantissa_normalizer.md R151, R152, R155: the special case first, then the range of the exponent. -/
theorem respond_manDecode (f : Fmt) (M : BitSeq) (e : Int) (hlen : M.length = f.W) :
    respond (manDecode f M e) = magnitudeResponse f (binToNat M) e := by
  by_cases hspecial : binToNat M = 0 ∧ e = 0
  · obtain ⟨hM, rfl⟩ := hspecial
    rw [manDecode_of_zero f M hlen hM, magnitudeResponse, if_pos ⟨hM, rfl⟩, respond_ok]
    simp
  by_cases hrange : 0 ≤ e ∧ e ≤ f.W
  · obtain ⟨y, hy, hval⟩ := manDecode_ok f M e hlen hrange.1 hrange.2 hspecial
    rw [hy, respond_ok_eq_ofNat, hval, magnitudeResponse, if_neg hspecial, if_pos hrange]
  · rw [manDecode_of_out_of_range f M e hlen hrange, magnitudeResponse, if_neg hspecial, if_neg hrange]
    rfl

theorem place_manDecodeUnit (f : Fmt) (M : BitVec f.W) (e : BitVec 16) :
    place (manDecodeUnit f M e) = magnitudeResponse f M.toNat e.toInt := by
  rw [manDecodeUnit, place_unitOut, respond_manDecode f _ _ (length_seq M), binToNat_seq, signed]

/-! ## mantissa_normalizer, encode direction -/

theorem bitCount_eq_log2 (n : Nat) (h : n ≠ 0) : bitCount n = n.log2 + 1 :=
  bitCount_eq n n.log2 (Nat.log2_self_le h) Nat.lt_log2_self

/-- 42_mantissa_normalizer.md R162: an integer part of more than `EMAX_FIELD - BIAS + 1` bits overflows the field. -/
theorem expField_eq (f : Fmt) (I : Nat) :
    expField f I =
      if 2 ^ (f.emaxField - f.bias + 1) ≤ I then .error .exponentOverflow
      else .ok (fixedBin f.K (if I = 0 then 0 else I.log2 + f.bias)) := by
  by_cases hI : I = 0
  · subst hI
    rw [expField, if_neg (not_not.mpr rfl), if_neg (by simp), if_pos rfl, fixedBin_zero]
  · rw [expField, if_pos hI, bitCount_eq_log2 I hI, expEncode_eq_ite, Nat.add_sub_cancel, if_neg hI]
    simp only [← Nat.le_log2 hI, Nat.succ_le_iff]

/-- 42_mantissa_normalizer.md R163: only the exponent field can fail. -/
theorem normalize_eq (p : Params) (f : Fmt) (I F : Nat) :
    normalize p f I F =
      if 2 ^ (f.emaxField - f.bias + 1) ≤ I then .error .exponentOverflow
      else .ok (fixedBin f.K (if I = 0 then 0 else I.log2 + f.bias), (intBits I).drop 1 ++ fracBits p f F) := by
  simp only [normalize, expField_eq]
  by_cases hI : 2 ^ (f.emaxField - f.bias + 1) ≤ I
  · simp only [if_pos hI]
  · simp only [if_neg hI]

theorem normalizeUnit_eq (p : Params) (f : Fmt) (I : BitVec (f.intMagBits p)) (F : BitVec f.fracUnits) :
    normalizeUnit p f I F =
      if 2 ^ (f.emaxField - f.bias + 1) ≤ I.toNat then (10, { E := 0, MB := [] })
      else (0, { E := BitVec.ofNat f.K (if I.toNat = 0 then 0 else I.toNat.log2 + f.bias),
                 MB := (intBits I.toNat).drop 1 ++ fracBits p f F.toNat }) := by
  rw [normalizeUnit, normalize_eq]
  by_cases hI : 2 ^ (f.emaxField - f.bias + 1) ≤ I.toNat
  · rw [if_pos hI, if_pos hI]; rfl
  · rw [if_neg hI, if_neg hI, Except.map, word_fixedBin, unitOut_ok]

/-- The buffer's integer bits are the number without its leading 1. -/
theorem drop_intBits (I : Nat) (hI : I ≠ 0) :
    ((intBits I).drop 1).length = I.log2 ∧ binToNat ((intBits I).drop 1) = I - 2 ^ I.log2 := by
  have hlen : (natToBin I).length = I.log2 + 1 := bitCount_eq_log2 I hI
  refine ⟨by rw [intBits, List.length_drop, hlen, Nat.add_sub_cancel], ?_⟩
  have hlt := Nat.lt_log2_self (n := I)
  rw [pow_succ] at hlt
  rw [intBits, binToNat_drop, binToNat_natToBin, hlen, Nat.add_sub_cancel,
    Nat.mod_eq_sub_mod (Nat.log2_self_le hI), Nat.mod_eq_of_lt (by omega)]

/-! ## round_to_even_unit -/

theorem ofNat_toNat_succ {w : Nat} (x : BitVec w) : BitVec.ofNat w (x.toNat + 1) = x + 1 :=
  BitVec.eq_of_toNat_eq (by simp)

/-- 43_round_to_even_unit.md R182, R183, R185 for a candidate of any width: the carry has no room exactly when every bit
is 1. -/
theorem respond_roundBits {w : Nat} (bits : BitVec w) (g r st : Bool) :
    respond ((roundBits (seq bits) g r st).map (word w)) = roundingResponse bits g r st := by
  have hodd : decide (bits.toNat % 2 = 1) = bits.getLsbD 0 := (Nat.testBit_zero _).symm
  have hup : roundUp g r st (bits.getLsbD 0) = true ↔
      g = true ∧ (r = true ∨ st = true ∨ bits.getLsbD 0 = true) := by
    simp only [roundUp, Bool.and_eq_true, Bool.or_eq_true, or_assoc]
  have hones : bits.toNat + 1 = 2 ^ w ↔ bits = BitVec.allOnes w := by
    rw [← BitVec.toNat_inj, BitVec.toNat_allOnes]
    have hpos := Nat.two_pow_pos w
    omega
  simp only [roundBits_eq, binToNat_seq, length_seq, hodd, hup, hones, roundingResponse]
  split
  · split
    · rfl
    · rw [Except.map, word_fixedBin, respond_ok, ofNat_toNat_succ]
  · rw [Except.map, word_seq, respond_ok]

theorem place_roundBitsUnit (f : Fmt) (bits : BitVec f.W) (g r st : Bool) :
    place (roundBitsUnit f bits g r st) = roundingResponse bits g r st := by
  rw [roundBitsUnit, place_unitOut, respond_roundBits]

/-- The three bits behind the candidate decide as the rest of the number does: the guard bit is its upper half, the other
two say whether the lower half is 0 (43_round_to_even_unit.md R180 to R182). -/
theorem roundUp_iff_rest {g r st : Bool} {n k : Nat} (lsb : Bool) (hg : g = true ↔ 2 ^ k ≤ n % 2 ^ (k + 1))
    (hrs : (r || st) = true ↔ n % 2 ^ k ≠ 0) :
    roundUp g r st lsb = true ↔
      2 ^ k < n % 2 ^ (k + 1) ∨ (n % 2 ^ (k + 1) = 2 ^ k ∧ lsb = true) := by
  have hlow : n % 2 ^ (k + 1) % 2 ^ k = n % 2 ^ k := Nat.mod_mod_of_dvd n (pow_dvd_pow 2 (Nat.le_succ k))
  have hlt : n % 2 ^ (k + 1) < 2 * 2 ^ k := (Nat.mod_lt n (Nat.two_pow_pos _)).trans_eq (pow_succ' 2 k)
  have hmid : 2 ^ k ≤ n % 2 ^ (k + 1) → n % 2 ^ k = n % 2 ^ (k + 1) - 2 ^ k := fun hhalf => by
    rw [← hlow, Nat.mod_eq_sub_mod hhalf, Nat.mod_eq_of_lt (Nat.sub_lt_left_of_lt_add hhalf (by omega))]
  rw [roundUp, Bool.and_eq_true, Bool.or_eq_true, hg, hrs]
  by_cases hhalf : 2 ^ k ≤ n % 2 ^ (k + 1)
  · rw [hmid hhalf]
    cases lsb
    · simp only [Bool.false_eq_true, or_false, and_false]; omega
    · simp only [or_true, and_true]; omega
  · omega

/-- 43_round_to_even_unit.md R186, R187: the buffer's number rounded to its first W bits. -/
theorem roundBuffer_eq (f : Fmt) (MB : BitSeq) (k : Nat) (hlen : MB.length = f.W + k + 1) :
    roundBuffer f MB =
      if roundedFraction k (binToNat MB) = 2 ^ f.W then .error .roundingOverflow
      else .ok (fixedBin f.W (roundedFraction k (binToNat MB))) := by
  obtain ⟨g, r, st, hround, hm, hg, hrs⟩ := roundBuffer_parts f MB k hlen
  have htake : (MB.take f.W).length = f.W := by rw [List.length_take]; omega
  have hlt := binToNat_lt (MB.take f.W)
  have hkeep := fixedBin_binToNat (MB.take f.W)
  rw [htake, hm] at hlt hkeep
  rw [hround, roundBits_eq, hm, htake]
  simp only [roundedFraction, roundUp_iff_rest _ hg hrs, decide_eq_true_eq]
  split
  · rfl
  · rw [if_neg hlt.ne, hkeep]

theorem roundBufferUnit_eq (f : Fmt) (MB : BitSeq) (k : Nat) (hlen : MB.length = f.W + k + 1) :
    roundBufferUnit f MB =
      let up := roundedFraction k (binToNat MB)
      if up = 2 ^ f.W then (8, 0) else (0, BitVec.ofNat f.W up) := by
  simp only [roundBufferUnit, roundBuffer_eq f MB k hlen]
  split
  · rfl
  · rw [Except.map, word_fixedBin, unitOut_ok]

end Sys2Proof.Machine
end

section
/-! The decoder's and the encoder's response in closed form (44_decoders.md R202, R203; 45_encoders.md R224, R225, R232
to R234), and the output signals of all units (10_state.md R39). -/

namespace Sys2Proof.Machine

/-! ## Decoder -/

/-- The number of the magnitude pattern is that of its two fields, which leave the sign bit free. -/
theorem magnitude_pattern_lt (f : Fmt) {E M : Nat} (hE : E < 2 ^ f.K) (hM : M < 2 ^ f.W) :
    E * 2 ^ f.W + M < 2 ^ (f.N - 1) := by
  have hN : f.N - 1 = f.K + f.W := by rw [f.width]; omega
  rw [hN, pow_add]
  calc E * 2 ^ f.W + M < (E + 1) * 2 ^ f.W := by rw [Nat.add_mul, Nat.one_mul]; exact Nat.add_lt_add_left hM _
    _ ≤ 2 ^ f.K * 2 ^ f.W := Nat.mul_le_mul_right _ hE

/-- A pattern that passes the validator decodes as its mantissa field does at its unbiased exponent; the sign bit is put
back. -/
theorem decodeFloat_of_valid (f : Fmt) (x : BitVec f.N) (hE : f.expOf x ≠ f.emaxField) (hM : f.manOf x ≠ 0) :
    decodeFloat f x =
      (manDecode f (extract f (seq x)).mantissa (if f.expOf x = 0 then 0 else (f.expOf x : Int) - f.bias)).map
        (withSign f (f.signOf x)) := by
  obtain ⟨hsign, -, hexp, -⟩ := extract_seq f x
  have hvalid : validate f (extract f (seq x)) = .ok () := by rw [validate_extract, if_neg hE, if_neg hM]
  have he : expDecode f (extract f (seq x)).expField =
      if f.expOf x = 0 then 0 else (f.expOf x : Int) - f.bias := by rw [expDecode, hexp]
  simp only [decodeFloat, hvalid, hsign, he]
  cases manDecode f (extract f (seq x)).mantissa (if f.expOf x = 0 then 0 else (f.expOf x : Int) - f.bias) <;> rfl

theorem Fmt.bias_add_W_lt (f : Fmt) : f.bias + f.W < f.emaxField := by cases f <;> decide

/-- The exponent field of a decoded pattern: field 0 becomes that of exponent 0, every other field stays
(44_decoders.md R202). -/
theorem decodeFloat_ok (f : Fmt) (x : BitVec f.N) (hM : f.manOf x ≠ 0)
    (hE : f.expOf x = 0 ∨ (f.bias ≤ f.expOf x ∧ f.expOf x ≤ f.bias + f.W)) :
    ∃ y, decodeFloat f x = .ok y ∧ y.toNat = (f.signOf x).toNat * 2 ^ (f.N - 1) +
      ((if f.expOf x = 0 then f.bias else f.expOf x) * 2 ^ f.W + f.manOf x) := by
  obtain ⟨-, -, -, hlen, hman⟩ := extract_seq f x
  have hbias := f.bias_add_W_lt
  have hK : f.emaxField < 2 ^ f.K := by rw [f.emax_eq]; exact Nat.sub_lt (Nat.two_pow_pos _) Nat.one_pos
  have hvalid := decodeFloat_of_valid f x (by omega) hM
  generalize he : (if f.expOf x = 0 then 0 else (f.expOf x : Int) - f.bias) = e at hvalid
  have hrange : 0 ≤ e ∧ e ≤ f.W := by split at he <;> omega
  have hfield : e.toNat + f.bias = if f.expOf x = 0 then f.bias else f.expOf x := by
    split at he <;> split <;> omega
  obtain ⟨y, hy, hval⟩ := manDecode_ok f (extract f (seq x)).mantissa e hlen hrange.1 hrange.2 (by omega)
  rw [hman, hfield] at hval
  have hlow : y.toNat < 2 ^ (f.N - 1) := by
    rw [hval]
    exact magnitude_pattern_lt f (by split <;> omega) (f.manOf_lt x)
  exact ⟨withSign f (f.signOf x) y, by rw [hvalid, hy, Except.map], by rw [withSign_toNat f _ y hlow, hval]⟩

theorem decodeFloat_of_out_of_range (f : Fmt) (x : BitVec f.N) (hmax : f.expOf x ≠ f.emaxField) (hM : f.manOf x ≠ 0)
    (hE : ¬ (f.expOf x = 0 ∨ (f.bias ≤ f.expOf x ∧ f.expOf x ≤ f.bias + f.W))) :
    decodeFloat f x = .error .emptyMantissa := by
  obtain ⟨-, -, -, hlen, -⟩ := extract_seq f x
  rw [decodeFloat_of_valid f x hmax hM, manDecode_of_out_of_range f _ _ hlen (by split <;> omega), Except.map]

theorem decodeFloat_of_invalid (f : Fmt) (x : BitVec f.N) (h : f.expOf x = f.emaxField ∨ f.manOf x = 0) :
    decodeFloat f x = .error (if f.expOf x = f.emaxField then .exponentAllOnes else .mantissaAllZeros) := by
  simp only [decodeFloat, validate_extract]
  by_cases hmax : f.expOf x = f.emaxField
  · simp only [if_pos hmax]
  · simp only [if_neg hmax, if_pos (h.resolve_left hmax)]

/-- The table of 44_decoders.md R203, row by row. -/
theorem place_decodeUnit (f : Fmt) (x : BitVec f.N) : place (decodeUnit f x) = decoderResponse f x := by
  rw [decodeUnit, place_unitOut]
  simp only [decoderResponse]
  by_cases hmax : f.expOf x = f.emaxField
  · rw [decodeFloat_of_invalid f x (.inl hmax), if_pos hmax, if_pos hmax]; rfl
  by_cases hM : f.manOf x = 0
  · rw [decodeFloat_of_invalid f x (.inr hM), if_neg hmax, if_neg hmax, if_pos hM]; rfl
  rw [if_neg hmax, if_neg hM]
  by_cases hE : f.expOf x = 0 ∨ (f.bias ≤ f.expOf x ∧ f.expOf x ≤ f.bias + f.W)
  · obtain ⟨y, hy, hval⟩ := decodeFloat_ok f x hM hE
    rw [hy, respond_ok_eq_ofNat, hval]
    by_cases hzero : f.expOf x = 0
    · rw [if_pos hzero, if_pos hzero, ← Nat.add_assoc]
    · rw [if_neg hzero, if_neg hzero, if_pos (hE.resolve_left hzero), ← Nat.add_assoc, ← f.toNat_eq]
  · rw [decodeFloat_of_out_of_range f x hmax hM hE, if_neg (fun h => hE (.inl h)), if_neg (fun h => hE (.inr h))]
    rfl

/-! ## Encoder: the mantissa field of a buffer -/

/-- A number whose digits behind the first W are 0 keeps those. -/
theorem roundedFraction_mul_pow (c m : Nat) : roundedFraction c (m * 2 ^ (c + 1)) = m := by
  have hpos := Nat.two_pow_pos c
  simp only [roundedFraction, Nat.mul_div_cancel m (Nat.two_pow_pos (c + 1)), Nat.mul_mod_left]
  exact if_neg (by omega)

/-- Zeros behind the digits change no rounding. -/
theorem roundedFraction_shift (k j q : Nat) : roundedFraction (k + j) (q * 2 ^ j) = roundedFraction k q := by
  have hj := Nat.two_pow_pos j
  have hsplit : 2 ^ (k + j + 1) = 2 ^ (k + 1) * 2 ^ j := by rw [← pow_add]; congr 1; omega
  simp only [roundedFraction, hsplit, pow_add 2 k j, Nat.mul_div_mul_right _ _ hj, Nat.mul_mod_mul_right,
    Nat.mul_lt_mul_right hj, Nat.mul_left_inj hj.ne']

theorem roundedFraction_le {k q w : Nat} (hq : q < 2 ^ (w + k + 1)) : roundedFraction k q ≤ 2 ^ w := by
  have hlt : q / 2 ^ (k + 1) < 2 ^ w := by
    rwa [Nat.div_lt_iff_lt_mul (Nat.two_pow_pos _), ← pow_add, ← Nat.add_assoc]
  simp only [roundedFraction]
  split <;> omega

/-- 45_encoders.md R229, R230: the mantissa field is the buffer's number, taken with W + c + 1 digits and rounded to W,
however many of these digits the buffer holds: a short buffer is padded with zeros. -/
theorem roundIfLong_cases (f : Fmt) (MB : BitSeq) (c m : Nat) (hlen : MB.length ≤ f.W + c + 1)
    (hm : roundedFraction c (binToNat MB * 2 ^ (f.W + c + 1 - MB.length)) = m) :
    (m = 2 ^ f.W ∧ roundIfLong f MB = .error .roundingOverflow) ∨
    (m ≠ 2 ^ f.W ∧ ∃ Mf, roundIfLong f MB = .ok Mf ∧ Mf.length ≤ f.W ∧
      binToNat Mf * 2 ^ (f.W - Mf.length) = m) := by
  by_cases hlong : MB.length > f.W
  · obtain ⟨k, hk⟩ : ∃ k, MB.length = f.W + k + 1 := ⟨MB.length - f.W - 1, by omega⟩
    obtain ⟨j, rfl⟩ : ∃ j, c = k + j := ⟨c - k, by omega⟩
    rw [show f.W + (k + j) + 1 - MB.length = j by omega, roundedFraction_shift] at hm
    rw [roundIfLong, if_pos hlong, roundBuffer_eq f MB k hk, hm]
    by_cases hover : m = 2 ^ f.W
    · exact .inl ⟨hover, if_pos hover⟩
    · refine .inr ⟨hover, _, if_neg hover, (length_fixedBin _ _).le, ?_⟩
      have hle : m ≤ 2 ^ f.W := hm ▸ roundedFraction_le (hk ▸ binToNat_lt MB)
      rw [length_fixedBin, Nat.sub_self, pow_zero, Nat.mul_one, binToNat_fixedBin, Nat.mod_eq_of_lt (by omega)]
  · have hpad : f.W + c + 1 - MB.length = f.W - MB.length + (c + 1) := by omega
    rw [hpad, pow_add, ← Nat.mul_assoc, roundedFraction_mul_pow] at hm
    have hlt : m < 2 ^ f.W := by
      rw [← hm, ← Nat.sub_add_cancel (Nat.le_of_not_gt hlong), Nat.add_sub_cancel, pow_add, Nat.mul_comm]
      exact (Nat.mul_lt_mul_left (Nat.two_pow_pos _)).mpr (binToNat_lt MB)
    exact .inr ⟨hlt.ne, MB, if_neg hlong, Nat.le_of_not_gt hlong, hm⟩

/-- The steps of the encoder after normalization (45_encoders.md R229 to R231), for a field number and a buffer whose
first W + c + 1 digits round to `m`. -/
theorem encodeFloat_of_normalize {p : Params} {f : Fmt} {x : BitVec f.N} {E c m : Nat} {MB : BitSeq}
    (hmax : f.expOf x ≠ f.emaxField) (hfit : splitInt f x < 2 ^ f.intMagBits p)
    (hnorm : normalize p f (splitInt f x) (splitFrac f x) = .ok (fixedBin f.K E, MB)) (hE : E < 2 ^ f.K)
    (hlen : MB.length ≤ f.W + c + 1)
    (hm : roundedFraction c (binToNat MB * 2 ^ (f.W + c + 1 - MB.length)) = m) :
    (m = 2 ^ f.W ∧ encodeFloat p f x = .error .roundingOverflow) ∨
    (m ≠ 2 ^ f.W ∧ ∃ y, encodeFloat p f x = .ok y ∧
      y.toNat = (f.signOf x).toNat * 2 ^ (f.N - 1) + E * 2 ^ f.W + m) := by
  rw [encodeFloat, if_neg hmax, if_neg (Nat.not_le.mpr hfit), hnorm]
  obtain ⟨hover, hround⟩ | ⟨hover, Mf, hround, hMf, hval⟩ := roundIfLong_cases f MB c m hlen hm
  · exact .inl ⟨hover, by simp only [hround]⟩
  · refine .inr ⟨hover, assembleFloat f (f.signOf x) (fixedBin f.K E) Mf, by simp only [hround], ?_⟩
    rw [assembleFloat_toNat f _ _ Mf (length_fixedBin _ _) hMf, binToNat_fixedBin, Nat.mod_eq_of_lt hE, hval]

/-! ## Encoder: the magnitude -/

theorem magnitudeUnits_of_normal (f : Fmt) (x : BitVec f.N) (hE : f.expOf x ≠ 0) :
    magnitudeUnits f x = (2 ^ f.W + f.manOf x) * 2 ^ (f.expOf x - 1) := if_neg hE

theorem magnitudeUnits_lt (f : Fmt) (x : BitVec f.N) : magnitudeUnits f x < 2 ^ (f.W + f.expOf x) := by
  have hM := f.manOf_lt x
  by_cases hE : f.expOf x = 0
  · rw [magnitudeUnits, if_pos hE, hE]; exact hM
  · rw [magnitudeUnits_of_normal f x hE, show f.W + f.expOf x = f.W + 1 + (f.expOf x - 1) by omega, pow_add]
    exact (Nat.mul_lt_mul_right (Nat.two_pow_pos _)).mpr (by rw [pow_succ]; omega)

/-- A value of at least 1 has a field of at least BIAS, and its integer part has as many bits behind its leading 1 as the
field exceeds BIAS (42_mantissa_normalizer.md R164). -/
theorem splitInt_log2 (f : Fmt) (x : BitVec f.N) (hv : 2 ^ f.fracUnits ≤ magnitudeUnits f x) :
    f.bias ≤ f.expOf x ∧ splitInt f x ≠ 0 ∧ (splitInt f x).log2 = f.expOf x - f.bias := by
  have hbias := f.bias_bounds.1
  have hlt := magnitudeUnits_lt f x
  have hexp : f.fracUnits < f.W + f.expOf x := (Nat.pow_lt_pow_iff_right (by decide)).mp (hv.trans_lt hlt)
  have hE : f.bias ≤ f.expOf x := by simp only [Fmt.fracUnits] at hexp; omega
  have hI : splitInt f x ≠ 0 := (Nat.div_pos hv (Nat.two_pow_pos _)).ne'
  refine ⟨hE, hI, (Nat.log2_eq_iff hI).mpr ⟨?_, ?_⟩⟩
  · rw [splitInt, Nat.le_div_iff_mul_le (Nat.two_pow_pos _), ← pow_add,
      magnitudeUnits_of_normal f x (by omega),
      show f.expOf x - f.bias + f.fracUnits = f.W + (f.expOf x - 1) by simp only [Fmt.fracUnits]; omega, pow_add]
    exact Nat.mul_le_mul_right _ (Nat.le_add_right _ _)
  · rw [splitInt, Nat.div_lt_iff_lt_mul (Nat.two_pow_pos _), ← pow_add]
    rwa [show f.expOf x - f.bias + 1 + f.fracUnits = f.W + f.expOf x by simp only [Fmt.fracUnits]; omega]

theorem length_fracBits_le (p : Params) (f : Fmt) {F : Nat} (hF : F < 2 ^ f.fracUnits) :
    (fracBits p f F).length ≤ f.W + f.fracMargin p + 1 :=
  (fracBitsLoop_spec _ _ F hF).1

/-- Padded with zeros to their bound, the fraction bits are that many leading digits of the fraction. -/
theorem binToNat_fracBits (p : Params) (f : Fmt) {F : Nat} (hF : F < 2 ^ f.fracUnits) :
    binToNat (fracBits p f F) * 2 ^ (f.W + f.fracMargin p + 1 - (fracBits p f F).length) =
      F * 2 ^ (f.W + f.fracMargin p + 1) / 2 ^ f.fracUnits :=
  fracBitsLoop_value _ _ F hF

/-- The normalized buffer of a value of at least 1, padded to `e + margin + 1` digits behind its first W: the mantissa
field with zeros behind it, `e` being the unbiased exponent. -/
theorem binToNat_buffer (p : Params) (f : Fmt) (x : BitVec f.N) (hv : 2 ^ f.fracUnits ≤ magnitudeUnits f x) :
    binToNat ((intBits (splitInt f x)).drop 1 ++ fracBits p f (splitFrac f x)) *
        2 ^ (f.W + f.fracMargin p + 1 - (fracBits p f (splitFrac f x)).length) =
      f.manOf x * 2 ^ (f.expOf x - f.bias + f.fracMargin p + 1) := by
  obtain ⟨hE, hI, hlog⟩ := splitInt_log2 f x hv
  obtain ⟨hsplit, hF⟩ := split_spec f x
  obtain ⟨-, hint⟩ := drop_intBits (splitInt f x) hI
  have hbias := f.bias_bounds.1
  have hlead := Nat.log2_self_le hI
  rw [hlog] at hint hlead
  have hlen := length_fracBits_le p f hF
  have hfrac := binToNat_fracBits p f hF
  generalize fracBits p f (splitFrac f x) = FB at hlen hfrac ⊢
  have hdigits : splitInt f x * 2 ^ (f.W + f.fracMargin p + 1) +
      splitFrac f x * 2 ^ (f.W + f.fracMargin p + 1) / 2 ^ f.fracUnits =
      (2 ^ f.W + f.manOf x) * 2 ^ (f.expOf x - f.bias + f.fracMargin p + 1) := by
    rw [← Nat.mul_add_div (Nat.two_pow_pos _), ← Nat.mul_assoc, ← Nat.add_mul, Nat.mul_comm (2 ^ f.fracUnits), ← hsplit,
      magnitudeUnits_of_normal f x (by omega), Nat.mul_assoc, ← pow_add,
      show f.expOf x - 1 + (f.W + f.fracMargin p + 1) = f.expOf x - f.bias + f.fracMargin p + 1 + f.fracUnits by
        simp only [Fmt.fracUnits]; omega,
      pow_add _ _ f.fracUnits, ← Nat.mul_assoc, Nat.mul_div_cancel _ (Nat.two_pow_pos _)]
  rw [binToNat_append, hint, Nat.add_mul, hfrac, Nat.mul_assoc, ← pow_add, Nat.add_sub_cancel' hlen, Nat.sub_mul,
    ← Nat.sub_add_comm (Nat.mul_le_mul_right _ hlead), hdigits, Nat.add_mul, ← pow_add, ← pow_add,
    show f.expOf x - f.bias + (f.W + f.fracMargin p + 1) = f.W + (f.expOf x - f.bias + f.fracMargin p + 1) by omega,
    Nat.add_sub_cancel_left]

/-! ## Encoder: the two ranges of the magnitude -/

/-- 45_encoders.md R232: from 1 on, the field and the mantissa field of the input come back. -/
theorem encodeFloat_of_one_le (p : Params) (f : Fmt) (x : BitVec f.N) (hmax : f.expOf x ≠ f.emaxField)
    (hfit : splitInt f x < 2 ^ f.intMagBits p) (hv : 2 ^ f.fracUnits ≤ magnitudeUnits f x) :
    encodeFloat p f x = .ok x := by
  obtain ⟨hE, hI, hlog⟩ := splitInt_log2 f x hv
  obtain ⟨-, hF⟩ := split_spec f x
  obtain ⟨hlenI, -⟩ := drop_intBits (splitInt f x) hI
  have hlenF := length_fracBits_le p f hF
  have hbuf := binToNat_buffer p f x hv
  have hK := f.expOf_lt x
  have hnorm : normalize p f (splitInt f x) (splitFrac f x) =
      .ok (fixedBin f.K (f.expOf x), (intBits (splitInt f x)).drop 1 ++ fracBits p f (splitFrac f x)) := by
    have hrange : ¬ 2 ^ (f.emaxField - f.bias + 1) ≤ splitInt f x := by
      rw [← Nat.le_log2 hI, hlog, f.emax_eq]; omega
    rw [normalize_eq, if_neg hrange, if_neg hI, hlog, Nat.sub_add_cancel hE]
  rw [hlog] at hlenI
  obtain ⟨hover, -⟩ | ⟨-, y, hy, hval⟩ := encodeFloat_of_normalize (c := f.expOf x - f.bias + f.fracMargin p)
    (m := f.manOf x) hmax hfit hnorm hK (by rw [List.length_append, hlenI]; omega)
    (by
      rw [List.length_append, hlenI,
        show f.W + (f.expOf x - f.bias + f.fracMargin p) + 1 - (f.expOf x - f.bias +
          (fracBits p f (splitFrac f x)).length) =
          f.W + f.fracMargin p + 1 - (fracBits p f (splitFrac f x)).length by omega,
        hbuf, roundedFraction_mul_pow])
  · exact absurd hover (f.manOf_lt x).ne
  · rw [hy, BitVec.eq_of_toNat_eq (hval.trans (f.toNat_eq x).symm)]

/-- 45_encoders.md R233, R234: below 1 the field is 0 and the buffer holds the first fraction digits. -/
theorem encodeFloat_of_lt_one (p : Params) (f : Fmt) (x : BitVec f.N) {m : Nat} (hmax : f.expOf x ≠ f.emaxField)
    (hv : magnitudeUnits f x < 2 ^ f.fracUnits)
    (hm : roundedFraction (f.fracMargin p)
      (magnitudeUnits f x * 2 ^ (f.W + f.fracMargin p + 1) / 2 ^ f.fracUnits) = m) :
    (m = 2 ^ f.W ∧ encodeFloat p f x = .error .roundingOverflow) ∨
    (m ≠ 2 ^ f.W ∧ ∃ y, encodeFloat p f x = .ok y ∧ y.toNat = (f.signOf x).toNat * 2 ^ (f.N - 1) + m) := by
  have hI : splitInt f x = 0 := Nat.div_eq_of_lt hv
  have hF : splitFrac f x = magnitudeUnits f x := Nat.mod_eq_of_lt hv
  have hnorm : normalize p f (splitInt f x) (splitFrac f x) =
      .ok (fixedBin f.K 0, fracBits p f (magnitudeUnits f x)) := by
    rw [normalize_eq, hI, hF, if_neg (by simp), if_pos rfl]
    rfl
  have h := encodeFloat_of_normalize (m := m) hmax (hI ▸ Nat.two_pow_pos _) hnorm (Nat.two_pow_pos _)
    (length_fracBits_le p f hv) (by rw [binToNat_fracBits p f hv, hm])
  rwa [Nat.zero_mul, Nat.add_zero] at h

/-- The closed form of the response, its bounds on the magnitude read as bounds on the integer part. -/
theorem encoderResponse_eq (p : Params) (f : Fmt) (x : BitVec f.N) :
    encoderResponse p f x =
      if f.expOf x = f.emaxField then (2, 0)
      else if splitInt f x ≥ 2 ^ f.intMagBits p then (9, 0)
      else if 2 ^ f.fracUnits ≤ magnitudeUnits f x then (0, BitVec.ofNat 64 x.toNat)
      else
        let m := roundedFraction (f.fracMargin p)
          (magnitudeUnits f x * 2 ^ (f.W + f.fracMargin p + 1) / 2 ^ f.fracUnits)
        if m = 2 ^ f.W then (8, 0) else (0, BitVec.ofNat 64 ((f.signOf x).toNat * 2 ^ (f.N - 1) + m)) := by
  have hfit : splitInt f x ≥ 2 ^ f.intMagBits p ↔ 2 ^ (f.fracUnits + f.intMagBits p) ≤ magnitudeUnits f x := by
    rw [splitInt, ge_iff_le, Nat.le_div_iff_mul_le (Nat.two_pow_pos _), ← pow_add, Nat.add_comm]
  simp only [hfit]
  rfl

/-- The order of 45_encoders.md R224, R225 and the closed forms of R232 to R234. -/
theorem place_encodeUnit (p : Params) (f : Fmt) (x : BitVec f.N) : place (encodeUnit p f x) = encoderResponse p f x := by
  rw [encodeUnit, place_unitOut, encoderResponse_eq]
  by_cases hmax : f.expOf x = f.emaxField
  · rw [encodeFloat, if_pos hmax, if_pos hmax]; rfl
  by_cases hbig : splitInt f x ≥ 2 ^ f.intMagBits p
  · rw [encodeFloat, if_neg hmax, if_pos hbig, if_neg hmax, if_pos hbig]; rfl
  rw [if_neg hmax, if_neg hbig]
  by_cases hv : 2 ^ f.fracUnits ≤ magnitudeUnits f x
  · rw [encodeFloat_of_one_le p f x hmax (Nat.not_le.mp hbig) hv, if_pos hv, respond_ok_eq_ofNat]
  rw [if_neg hv]
  obtain ⟨hover, henc⟩ | ⟨hover, y, henc, hval⟩ := encodeFloat_of_lt_one p f x hmax (Nat.not_le.mp hv) rfl
  · rw [henc]; exact (if_pos hover).symm
  · rw [henc, respond_ok_eq_ofNat, hval]; exact (if_neg hover).symm

/-! ## All units -/

/-- Settles O52: each unit by the lemma that gives its signals in closed form. -/
theorem unitSignals : Obligations.UnitSignals := fun p f =>
  ⟨fieldUnit_eq f, toInt_expDecodeUnit f, expEncodeUnit_eq f, place_manDecodeUnit f, normalizeUnit_eq p f,
    place_roundBitsUnit f, roundBufferUnit_eq f, place_decodeUnit f, place_encodeUnit p f⟩

end Sys2Proof.Machine
end

section
/-! Byte lists and port words, the most significant byte first (20_memory.md R62, R63). -/

namespace Sys2Proof.Machine

theorem length_flatMap_seq (bytes : List Byte) : (bytes.flatMap seq).length = 8 * bytes.length := by
  induction bytes with
  | nil => rfl
  | cons b rest ih =>
    rw [List.flatMap_cons, List.length_append, length_seq, ih, List.length_cons]
    omega

theorem toNat_wordOfBytes {n : Nat} {bytes : List Byte} (hlen : 8 * bytes.length = n) :
    (wordOfBytes n bytes).toNat = binToNat (bytes.flatMap seq) :=
  toNat_word n _ ((length_flatMap_seq bytes).trans hlen)

/-- A byte lies directly above the bits of the bytes behind it. -/
theorem extractLsb'_wordOfBytes_append {n : Nat} (front rest : List Byte) (b : Byte)
    (hlen : 8 * (front ++ b :: rest).length = n) :
    (wordOfBytes n (front ++ b :: rest)).extractLsb' (8 * rest.length) 8 = b := by
  have hrest := binToNat_lt (rest.flatMap seq)
  rw [length_flatMap_seq] at hrest
  have hquot : (wordOfBytes n (front ++ b :: rest)).toNat / 2 ^ (8 * rest.length) =
      b.toNat + 2 ^ 8 * binToNat (front.flatMap seq) := by
    rw [toNat_wordOfBytes hlen, List.flatMap_append, List.flatMap_cons, ← List.append_assoc, binToNat_append,
      binToNat_append, binToNat_seq, length_seq, length_flatMap_seq, Nat.mul_comm _ (2 ^ (8 * rest.length)),
      Nat.mul_add_div (Nat.two_pow_pos _), Nat.div_eq_of_lt hrest, Nat.add_zero, Nat.add_comm, Nat.mul_comm]
  apply BitVec.eq_of_toNat_eq
  rw [BitVec.extractLsb'_toNat, Nat.shiftRight_eq_div_pow, hquot, Nat.add_mul_mod_self_left, Nat.mod_eq_of_lt b.isLt]

/-- The slice of 20_memory.md R62 in a word of any number of bytes. -/
theorem extractLsb'_wordOfBytes {n : Nat} {bytes : List Byte} (hlen : 8 * bytes.length = n) {j : Nat}
    (hj : j < bytes.length) : (wordOfBytes n bytes).extractLsb' (n - 8 - 8 * j) 8 = bytes[j] := by
  have hsplit : bytes = bytes.take j ++ bytes[j] :: bytes.drop (j + 1) := by
    rw [← List.drop_eq_getElem_cons hj, List.take_append_drop]
  have hpos : n - 8 - 8 * j = 8 * (bytes.drop (j + 1)).length := by rw [List.length_drop]; omega
  have hslice := extractLsb'_wordOfBytes_append (bytes.take j) (bytes.drop (j + 1)) bytes[j] (hsplit ▸ hlen)
  rwa [← hsplit, ← hpos] at hslice

theorem bytesOfWord_wordOfBytes {n : Nat} {bytes : List Byte} (hlen : 8 * bytes.length = n) :
    bytesOfWord bytes.length (wordOfBytes n bytes) = bytes := by
  refine List.ext_getElem (by simp [bytesOfWord]) fun j _ hj => ?_
  simp only [bytesOfWord, List.getElem_map, List.getElem_range, extractLsb'_wordOfBytes hlen hj]

/-- Settles O54: each byte is its slice of the word, and a word serialises to its slices. -/
theorem byteListsAreBigEndian : Obligations.ByteListsAreBigEndian := by
  intro f bytes hlen
  refine ⟨fun j hj => ?_, bytesOfWord_wordOfBytes hlen⟩
  rw [extractLsb'_wordOfBytes hlen hj, List.getElem?_eq_getElem hj]

end Sys2Proof.Machine
end

section
/-! The command word: the decoder and the encoder as functions of the word's three fields (30_encoding.md R85 to R87),
the rows of the opcode table as conditions on the operation code (R91), and the operand bits each row keeps (R93). -/

namespace Sys2Proof

open Machine

/-! ## Fields -/

theorem packCmd_and (op op' : OpCode) (a a' : Word) (b b' : SideWord) :
    packCmd op a b &&& packCmd op' a' b' = packCmd (op &&& op') (a &&& a') (b &&& b') :=
  BitVec.and_append.trans (congrArg (· ++ (b &&& b')) BitVec.and_append)

theorem opOf_and (w w' : CmdWord) : opOf (w &&& w') = opOf w &&& opOf w' := by
  simp only [opOf, BitVec.extractLsb'_and]

/-- The low bits of operand A, put back in their place, are operand A with every other bit 0. -/
theorem setWidth_extractLsb' (a : Word) (n : Nat) :
    (a.extractLsb' 0 n).setWidth 64 = a &&& (BitVec.allOnes n).setWidth 64 := by
  apply BitVec.eq_of_getLsbD_eq
  intro i hi
  simp [hi, Bool.and_comm]

/-- The three lowest bits of operand B, put back in their place, are operand B with every other bit 0. -/
theorem packGrs_getElem (b : SideWord) : packGrs b[2] b[1] b[0] = b &&& 7 := by
  have hlow : ∀ v : BitVec 3, packGrs v[2] v[1] v[0] = v.setWidth 16 := by decide
  have hb : b &&& 7 = (b.setWidth 3).setWidth 16 := by
    apply BitVec.eq_of_toNat_eq
    rw [BitVec.toNat_and, BitVec.toNat_setWidth, BitVec.toNat_setWidth, Nat.mod_eq_of_lt (b := 2 ^ 16) (by omega)]
    exact Nat.and_two_pow_sub_one_eq_mod b.toNat 3
  simpa using (hlow (b.setWidth 3)).trans hb.symm

/-! ## The rows, by operation code -/

/-- One case for each row of the opcode table (30_encoding.md R86). -/
theorem OpCode.rowCases {motive : OpCode → Prop} (dec32 : motive 0x0) (dec64 : motive 0x1) (enc32 : motive 0x2)
    (enc64 : motive 0x3) (expdec32 : motive 0x4) (expdec64 : motive 0x5) (expenc32 : motive 0x6)
    (expenc64 : motive 0x7) (mandec32 : motive 0x8) (mandec64 : motive 0x9) (rnd32 : motive 0xA) (rnd64 : motive 0xB)
    (reserved : ∀ op : OpCode, 12 ≤ op.toNat → motive op) (op : OpCode) : motive op := by
  by_cases hop : 12 ≤ op.toNat
  · exact reserved op hop
  · have hcode : op ∈ ([0, 1, 2, 3, 4, 5, 6, 7, 8, 9, 10, 11] : List OpCode) := by revert op; decide
    simp only [List.mem_cons, List.not_mem_nil, or_false] at hcode
    obtain rfl | rfl | rfl | rfl | rfl | rfl | rfl | rfl | rfl | rfl | rfl | rfl := hcode <;> assumption

theorem decode_packCmd_reserved {op : OpCode} (a : Word) (b : SideWord) (hop : 12 ≤ op.toNat) :
    decode (packCmd op a b) = .reserved op a b := by
  rw [decode, opOf_packCmd, aOf_packCmd, bOf_packCmd]
  generalize op.toNat = code at hop
  match code with
  | _ + 12 => rfl

/-- Settles O17: the packed fields are read back, a narrow operand from its zero extension. -/
theorem decodeOfEncode : Obligations.DecodeOfEncode := by
  intro i hwf
  cases i
  case reserved k a b => exact decode_packCmd_reserved a b (of_decide_eq_true hwf)
  all_goals simp [encode, decode, extract_setWidth]

/-- The row of an operation code: the codes from 0xC on share the last one. -/
def rowOf (op : OpCode) : OpRow := opRows[min op.toNat 12]'(Nat.lt_succ_of_le (Nat.min_le_right _ _))

theorem rowOf_mem (op : OpCode) : rowOf op ∈ opRows := List.getElem_mem _

theorem rowOf_reserved {op : OpCode} (hop : 12 ≤ op.toNat) : rowOf op = opRows[12] := by
  simp only [rowOf, Nat.min_eq_right hop]

/-- 30_encoding.md R91: a row's mask covers the operation code alone, and each code selects one row. -/
theorem selects_eq {row : OpRow} (hrow : row ∈ opRows) (w : CmdWord) :
    row.selects w = decide (row = rowOf (opOf w)) := by
  have hcode : ∀ row ∈ opRows,
      row.mask = packCmd (opOf row.mask) 0 0 ∧ row.pattern = packCmd (opOf row.pattern) 0 0 := by decide
  have hrows : ∀ row ∈ opRows, ∀ op : OpCode, op &&& opOf row.mask = opOf row.pattern ↔ row = rowOf op := by decide
  obtain ⟨hmask, hpattern⟩ := hcode row hrow
  have hsel : w &&& row.mask = packCmd (opOf w &&& opOf row.mask) 0 0 := by
    rw [hmask, ← packCmd_fields w, packCmd_and]
    simp
  have hop : w &&& row.mask = row.pattern ↔ opOf w &&& opOf row.mask = opOf row.pattern := by
    refine ⟨fun h => by rw [← opOf_and, h], fun h => ?_⟩
    rw [hsel, h, ← hpattern]
  rw [OpRow.selects, Bool.beq_eq_decide_eq]
  simp only [hop, hrows row hrow]

theorem decode_packCmd_mnemonic (op : OpCode) (a : Word) (b : SideWord) :
    (decode (packCmd op a b)).mnemonic = (rowOf op).mnemonic := by
  induction op using OpCode.rowCases with
  | reserved op hop => rw [decode_packCmd_reserved a b hop, rowOf_reserved hop]; rfl
  | _ => rw [decode, opOf_packCmd]; rfl

theorem decode_wf (w : CmdWord) : (decode w).wf = true := by
  rw [← packCmd_fields w]
  induction opOf w using OpCode.rowCases with
  | reserved op hop => rw [decode_packCmd_reserved _ _ hop]; exact decide_eq_true hop
  | _ => rw [decode, opOf_packCmd]; rfl

/-- A row that keeps `n` bits of operand A and the bits `bits` of operand B. -/
theorem packCmd_and_holds (op : OpCode) (a : Word) (b : SideWord) (n : Nat) (bits : SideWord)
    (hholds : (rowOf op).holds = packCmd 0xF ((BitVec.allOnes n).setWidth 64) bits) :
    packCmd op a b &&& (rowOf op).holds = packCmd op ((a.extractLsb' 0 n).setWidth 64) (b &&& bits) := by
  rw [hholds, packCmd_and, setWidth_extractLsb', show op &&& 0xF = op from BitVec.and_allOnes]

/-- 30_encoding.md R87 row by row: the row's `holds` names the operand bits that its instruction keeps. -/
theorem encode_decode_packCmd (op : OpCode) (a : Word) (b : SideWord) :
    encode (decode (packCmd op a b)) = packCmd op a b &&& (rowOf op).holds := by
  induction op using OpCode.rowCases with
  | dec32 => rw [packCmd_and_holds 0x0 a b 32 0 (by decide)]; simp [decode, encode]
  | dec64 => rw [packCmd_and_holds 0x1 a b 64 0 (by decide)]; simp [decode, encode]
  | enc32 => rw [packCmd_and_holds 0x2 a b 32 0 (by decide)]; simp [decode, encode]
  | enc64 => rw [packCmd_and_holds 0x3 a b 64 0 (by decide)]; simp [decode, encode]
  | expdec32 => rw [packCmd_and_holds 0x4 a b 8 0 (by decide)]; simp [decode, encode]
  | expdec64 => rw [packCmd_and_holds 0x5 a b 11 0 (by decide)]; simp [decode, encode]
  | expenc32 => rw [packCmd_and_holds 0x6 a b 16 0 (by decide)]; simp [decode, encode]
  | expenc64 => rw [packCmd_and_holds 0x7 a b 16 0 (by decide)]; simp [decode, encode]
  | mandec32 =>
    rw [packCmd_and_holds 0x8 a b 23 (BitVec.allOnes 16) (by decide), BitVec.and_allOnes]
    simp [decode, encode]
  | mandec64 =>
    rw [packCmd_and_holds 0x9 a b 52 (BitVec.allOnes 16) (by decide), BitVec.and_allOnes]
    simp [decode, encode]
  | rnd32 => rw [packCmd_and_holds 0xA a b 23 7 (by decide)]; simp [decode, encode, packGrs_getElem]
  | rnd64 => rw [packCmd_and_holds 0xB a b 52 7 (by decide)]; simp [decode, encode, packGrs_getElem]
  | reserved op hop =>
    rw [decode_packCmd_reserved a b hop, rowOf_reserved hop]
    exact BitVec.and_allOnes.symm

theorem encode_decode (w : CmdWord) : encode (decode w) = w &&& (rowOf (opOf w)).holds := by
  simpa using encode_decode_packCmd (opOf w) (aOf w) (bOf w)

/-! ## What the encoder keeps -/

/-- Settles O18: the row selected is that of the word's operation code, whose `holds` masks the operands. -/
theorem encodeOfDecodeClearsIgnoredBits : Obligations.EncodeOfDecodeClearsIgnoredBits := by
  intro w row hrow hsel
  have hmasks : ∀ row ∈ opRows,
      row.reads &&& row.holds = row.reads ∧ (row.mnemonic ≠ .RESERVED → row.holds = row.reads) := by decide
  rw [selects_eq hrow, decide_eq_true_eq] at hsel
  exact ⟨hsel ▸ encode_decode w, hmasks row hrow⟩

/-- Settles O19: a row is selected exactly when it is that of the word's operation code. -/
theorem everyWordSelectsOneRow : Obligations.EveryWordSelectsOneRow := by
  intro w
  refine ⟨decode_wf w, ⟨rowOf (opOf w), rowOf_mem _, by simp [selects_eq (rowOf_mem _)]⟩, fun row hrow hsel => ?_,
    fun w' hop row hrow => ?_⟩
  · rw [selects_eq hrow, decide_eq_true_eq] at hsel
    rw [hsel, ← decode_packCmd_mnemonic (opOf w) (aOf w) (bOf w), packCmd_fields]
  · rw [selects_eq hrow, selects_eq hrow, opOf, hop, ← opOf]

/-! ## Ignored bits -/

/-- Every row reads the operation code. -/
theorem opOf_eq_of_reads {row : OpRow} (hrow : row ∈ opRows) {w w' : CmdWord}
    (hreads : row.reads &&& w = row.reads &&& w') : opOf w = opOf w' := by
  have hcode : ∀ row ∈ opRows, opOf row.reads = BitVec.allOnes 4 := by decide
  have hop := congrArg opOf hreads
  rwa [opOf_and, opOf_and, hcode row hrow, BitVec.allOnes_and, BitVec.allOnes_and] at hop

/-- An instruction is determined by the bits that its row holds: they make its command word, which decodes to it. -/
theorem decode_eq_of_holds {w w' : CmdWord} (hop : opOf w = opOf w')
    (hholds : w &&& (rowOf (opOf w)).holds = w' &&& (rowOf (opOf w)).holds) : decode w = decode w' := by
  rw [← decodeOfEncode (decode w) (decode_wf w), ← decodeOfEncode (decode w') (decode_wf w'), encode_decode,
    encode_decode, hholds, hop]

/-- Settles O20: a row but the reserved one holds what it reads, and the meaning of a reserved instruction uses none of
its operands. -/
theorem ignoredBitsHaveNoEffect : Obligations.IgnoredBitsHaveNoEffect := by
  intro w w' s row hrow hsel hreads
  have hop := opOf_eq_of_reads hrow hreads
  rw [selects_eq hrow, decide_eq_true_eq] at hsel
  rw [step_present, step_present]
  by_cases hres : 12 ≤ (opOf w).toNat
  · rw [← packCmd_fields w, ← packCmd_fields w', ← hop, decode_packCmd_reserved _ _ hres,
      decode_packCmd_reserved _ _ hres]
    rfl
  · have hholds : ∀ op : OpCode, ¬ 12 ≤ op.toNat → (rowOf op).holds = (rowOf op).reads := by decide
    rw [hsel, BitVec.and_comm _ w, BitVec.and_comm _ w', ← hholds _ hres] at hreads
    rw [decode_eq_of_holds hop hreads]

end Sys2Proof
end

section
/-! Fixed command words, and the operations whose meaning is their placement on the port. -/

namespace Sys2Proof.Machine

/-- Settles O21: the eight words by evaluation. -/
theorem specWordsDecode : Obligations.SpecWordsDecode := by
  unfold Obligations.SpecWordsDecode
  decide

/-- Settles O34: the decoder's last row, and a meaning that reads no operand. -/
theorem reservedAnswersIllegalOp : Obligations.ReservedAnswersIllegalOp :=
  ⟨fun _ a b hop => decode_packCmd_reserved a b hop, fun _ _ _ _ => rfl⟩

/-- A placed value is as small as its own width says. -/
theorem result_toNat_lt {o : Host.Outcome State Fault Refusal} {s : State} {n : Nat} {out : Status × BitVec n}
    (hexec : o = .next (s.latch (place out))) : ∃ t, o = .next t ∧ t.rspResult.toNat < 2 ^ n := by
  refine ⟨_, hexec, ?_⟩
  rw [State.latch_rspResult, place, BitVec.toNat_setWidth]
  exact (Nat.mod_le _ _).trans_lt out.2.isLt

/-- A sign-extended result is the sign extension of its own low bits. -/
theorem result_eq_signExtend {o : Host.Outcome State Fault Refusal} {s : State} {v : BitVec 16}
    (hexec : o = .next (s.latch (respond (.ok (sext64 v))))) :
    ∃ t, o = .next t ∧ t.rspResult = (t.rspResult.setWidth 16).signExtend 64 := by
  have hlow : (v.signExtend 64).setWidth 16 = v := by
    ext i hi
    rw [BitVec.getElem_setWidth, BitVec.getLsbD_signExtend, if_pos hi, decide_eq_true (by omega), Bool.true_and,
      BitVec.getLsbD_eq_getElem]
  refine ⟨_, hexec, ?_⟩
  rw [State.latch_rspResult, respond_ok, BitVec.setWidth_eq, sext64, hlow]

/-- Settles O16: every meaning but the exponent decodes places a value of its unit's width. -/
theorem resultPlacement : Obligations.ResultPlacement :=
  ⟨fun x _ => result_toNat_lt (out := decodeUnit .b32 x) rfl,
    fun x s => result_toNat_lt (out := encodeUnit s.cfg .b32 x) rfl,
    fun n _ => result_toNat_lt (out := expEncodeUnit .b32 n) rfl,
    fun n _ => result_toNat_lt (out := expEncodeUnit .b64 n) rfl,
    fun M e _ => result_toNat_lt (out := manDecodeUnit .b32 M e) rfl,
    fun b g r st _ => result_toNat_lt (out := roundBitsUnit .b32 b g r st) rfl,
    fun b g r st _ => result_toNat_lt (out := roundBitsUnit .b64 b g r st) rfl,
    fun E _ => result_eq_signExtend (v := expDecodeUnit .b32 E) rfl,
    fun E _ => result_eq_signExtend (v := expDecodeUnit .b64 E) rfl⟩

theorem operandA_toNat (a : Word) : operandA a.toNat = some a := by
  rw [operandA, if_pos a.isLt, BitVec.ofNat_toNat, BitVec.setWidth_eq]

theorem request_packCmd (op : OpCode) (a : Word) (b : SideWord) :
    PortCycle.request (packCmd op a b) = ⟨false, true, op, a, b⟩ := by
  rw [PortCycle.request, opOf_packCmd, aOf_packCmd, bOf_packCmd]

theorem ofInt_eq_ofNat_emod (e : Int) : BitVec.ofInt 16 e = BitVec.ofNat 16 (e % 2 ^ 16).toNat := by
  apply BitVec.eq_of_toNat_eq
  rw [BitVec.toNat_ofInt, BitVec.toNat_ofNat, Nat.mod_eq_of_lt (by omega)]
  rfl

theorem assemble_raw (k : OpCode) (a : Word) (b : SideWord) :
    assemble (.raw k.toNat a.toNat b.toNat) = some ⟨false, true, k, a, b⟩ := by
  rw [assemble, if_pos ⟨k.isLt, b.isLt⟩, operandA_toNat, BitVec.ofNat_toNat, BitVec.ofNat_toNat]
  simp [request_packCmd]

/-- Settles O55: an operand that fits is its own word, and the packed fields are the cycle's signals. -/
theorem assembledLines : Obligations.AssembledLines := by
  intro a b k e g r st
  simp only [assemble_raw]
  simp [assemble, operandA_toNat, request_packCmd, fmtCode, packGrs, ofInt_eq_ofNat_emod, PortCycle.idle,
    PortCycle.reset]

/-- Settles O56: the four lines by evaluation. -/
theorem workedEncodings : Obligations.WorkedEncodings := by
  unfold Obligations.WorkedEncodings
  decide

end Sys2Proof.Machine
end

section
/-! The rounding of decimal literals (30_encoding.md R95): the patterns of a format are numbered in the order of their
values, and the nearest one is found by counting the midpoints below the literal. -/

namespace Sys2Proof.Machine

/-! ## Patterns without a sign, in the order of their values -/

/-- The magnitude of pattern number `y`, in units of 2^-fracUnits (log 6): the spacing of its binade times the number of
spacings. The subnormal patterns have the spacing of the first binade. -/
def patternUnits (f : Fmt) (y : Nat) : Nat := (y - (y / 2 ^ f.W - 1) * 2 ^ f.W) * 2 ^ (y / 2 ^ f.W - 1)

/-- A number of spacings `n` at the shift `s` is a pattern's magnitude; the first one of the next binade is included. -/
theorem patternUnits_shift (f : Fmt) {s n : Nat} (hlo : s = 0 ∨ 2 ^ f.W ≤ n) (hhi : n ≤ 2 ^ (f.W + 1)) :
    patternUnits f (s * 2 ^ f.W + n) = n * 2 ^ s := by
  have hpos := Nat.two_pow_pos f.W
  rw [pow_succ] at hhi
  have hdiv : (s * 2 ^ f.W + n) / 2 ^ f.W = s + n / 2 ^ f.W := by
    rw [Nat.mul_comm, Nat.mul_add_div hpos]
  have hq : n / 2 ^ f.W ≤ 2 := Nat.div_le_of_le_mul (by omega)
  rw [patternUnits, hdiv]
  obtain hlast | hlast : n = 2 ^ f.W * 2 ∨ n < 2 ^ f.W * 2 := by omega
  · subst hlast
    rw [Nat.mul_div_cancel_left _ hpos, show s + 2 - 1 = s + 1 by omega, Nat.add_mul, pow_succ]
    have : s * 2 ^ f.W + 2 ^ f.W * 2 - (s * 2 ^ f.W + 1 * 2 ^ f.W) = 2 ^ f.W := by omega
    rw [this]; ring
  · have hs : s + n / 2 ^ f.W - 1 = s := by
      obtain rfl | hlo := hlo
      · have : n / 2 ^ f.W < 2 := Nat.div_lt_of_lt_mul hlast
        omega
      · have := Nat.div_eq_of_lt_le (k := 1) (by omega) (by omega : n < (1 + 1) * 2 ^ f.W)
        omega
    rw [hs, Nat.add_sub_cancel_left]

/-- Every pattern number is a number of spacings of its binade, below the first of the next one. -/
theorem exists_shift (f : Fmt) (y : Nat) :
    ∃ s n, y = s * 2 ^ f.W + n ∧ (s = 0 ∨ 2 ^ f.W ≤ n) ∧ n < 2 ^ (f.W + 1) := by
  have hpos := Nat.two_pow_pos f.W
  have hdm := Nat.div_add_mod y (2 ^ f.W)
  have hmod := Nat.mod_lt y hpos
  rw [pow_succ]
  cases hq : y / 2 ^ f.W with
  | zero =>
    rw [hq] at hdm
    exact ⟨0, y, by omega, .inl rfl, by omega⟩
  | succ s =>
    rw [hq, Nat.mul_add, Nat.mul_comm] at hdm
    exact ⟨s, 2 ^ f.W + y % 2 ^ f.W, by omega, .inr (by omega), by omega⟩

theorem patternUnits_strictMono (f : Fmt) : StrictMono (patternUnits f) := by
  refine strictMono_nat_of_lt_succ fun y => ?_
  obtain ⟨s, n, rfl, hlo, hhi⟩ := exists_shift f y
  rw [patternUnits_shift f hlo hhi.le, Nat.add_assoc, patternUnits_shift f (by omega) hhi]
  exact (Nat.mul_lt_mul_right (Nat.two_pow_pos s)).mpr (Nat.lt_succ_self n)

/-- Two neighbours below a pattern, the upper one perhaps the pattern itself. -/
theorem patternUnits_add_lt (f : Fmt) {z y : Nat} (hz : z < y) :
    patternUnits f z + patternUnits f (z + 1) < 2 * patternUnits f y := by
  have hlt : patternUnits f z < patternUnits f y := patternUnits_strictMono f hz
  have hle : patternUnits f (z + 1) ≤ patternUnits f y := (patternUnits_strictMono f).monotone hz
  omega

/-- Two neighbours above a pattern, the lower one perhaps the pattern itself. -/
theorem lt_patternUnits_add (f : Fmt) {z y : Nat} (hz : y ≤ z) :
    2 * patternUnits f y < patternUnits f z + patternUnits f (z + 1) := by
  have hle : patternUnits f y ≤ patternUnits f z := (patternUnits_strictMono f).monotone hz
  have hlt : patternUnits f z < patternUnits f (z + 1) := patternUnits_strictMono f (Nat.lt_succ_self z)
  omega

/-! ## The rounded number -/

/-- The pattern number that `nearestPattern` compares with the first non-finite one. -/
def roundedPattern (f : Fmt) (num den : Nat) : Nat :=
  let shift := (num * 2 ^ f.fracUnits / den).log2 - f.W
  shift * 2 ^ f.W + nearestNat (num * 2 ^ f.fracUnits) (den * 2 ^ shift)

theorem nearestPattern_eq (f : Fmt) (num den : Nat) :
    nearestPattern f num den =
      if roundedPattern f num den < f.emaxField * 2 ^ f.W then some (roundedPattern f num den) else none := rfl

/-- The quotient is rounded up from above the middle, and in the middle where it is odd. -/
theorem nearestNat_cases (num den : Nat) :
    (nearestNat num den = num / den + 1 ∧
      ((2 * (num / den) + 1) * den < 2 * num ∨ ((2 * (num / den) + 1) * den = 2 * num ∧ num / den % 2 = 1))) ∨
    (nearestNat num den = num / den ∧
      ¬ ((2 * (num / den) + 1) * den < 2 * num ∨ ((2 * (num / den) + 1) * den = 2 * num ∧ num / den % 2 = 1))) := by
  have hdm := Nat.div_add_mod num den
  simp only [nearestNat]
  generalize num / den = q at hdm ⊢
  generalize num % den = r at hdm ⊢
  rw [show (2 * q + 1) * den = 2 * (den * q) + den by ring]
  split
  · exact .inl ⟨rfl, by omega⟩
  · exact .inr ⟨rfl, by omega⟩

/-- The shift leaves a number of spacings of one binade. -/
theorem quotient_bounds (f : Fmt) (units : Nat) :
    (units.log2 - f.W = 0 ∨ 2 ^ f.W ≤ units / 2 ^ (units.log2 - f.W)) ∧
      units / 2 ^ (units.log2 - f.W) < 2 ^ (f.W + 1) := by
  refine ⟨?_, ?_⟩
  · by_cases hs : units.log2 - f.W = 0
    · exact .inl hs
    · have hne : units ≠ 0 := by rintro rfl; simp at hs
      refine .inr ?_
      rw [Nat.le_div_iff_mul_le (Nat.two_pow_pos _), ← pow_add, show f.W + (units.log2 - f.W) = units.log2 by omega]
      exact Nat.log2_self_le hne
  · rw [Nat.div_lt_iff_lt_mul (Nat.two_pow_pos _), ← pow_add]
    exact Nat.lt_log2_self.trans_le (Nat.pow_le_pow_right (by decide) (by omega))

theorem mul_two_pow_add_mod_two (a b : Nat) {k : Nat} (hk : 0 < k) : (a * 2 ^ k + b) % 2 = b % 2 := by
  rw [← Nat.sub_add_cancel hk, pow_succ, ← Nat.mul_assoc]
  omega

/-- Between two neighbours the middle decides. -/
theorem midpoint_mul (q s den : Nat) : (q * 2 ^ s + (q + 1) * 2 ^ s) * den = (2 * q + 1) * (den * 2 ^ s) := by ring

/-- A pattern number lies below the rounded one exactly when the fraction lies above the middle between its magnitude
and the next, or in the middle and the number is odd. -/
theorem lt_roundedPattern_iff (f : Fmt) (num z : Nat) {den : Nat} (hden : 0 < den) :
    z < roundedPattern f num den ↔
      (patternUnits f z + patternUnits f (z + 1)) * den < 2 * (num * 2 ^ f.fracUnits) ∨
      ((patternUnits f z + patternUnits f (z + 1)) * den = 2 * (num * 2 ^ f.fracUnits) ∧ z % 2 = 1) := by
  obtain ⟨hlo, hhi⟩ := quotient_bounds f (num * 2 ^ f.fracUnits / den)
  simp only [roundedPattern]
  generalize (num * 2 ^ f.fracUnits / den).log2 - f.W = s at *
  generalize num * 2 ^ f.fracUnits = U at *
  have hdens : 0 < den * 2 ^ s := Nat.mul_pos hden (Nat.two_pow_pos s)
  have hcases := nearestNat_cases U (den * 2 ^ s)
  have hle := Nat.div_mul_le_self U (den * 2 ^ s)
  have hlt := Nat.lt_div_mul_add hdens (a := U)
  rw [Nat.div_div_eq_div_mul] at hlo hhi
  generalize U / (den * 2 ^ s) = q at *
  have hq := patternUnits_shift f hlo hhi.le
  have hq1 := patternUnits_shift f (n := q + 1) (s := s) (by omega) hhi
  obtain hz | rfl | hz := Nat.lt_trichotomy z (s * 2 ^ f.W + q)
  · have hbelow : (patternUnits f z + patternUnits f (z + 1)) * den < 2 * U :=
      calc (patternUnits f z + patternUnits f (z + 1)) * den < 2 * (q * 2 ^ s) * den :=
            (Nat.mul_lt_mul_right hden).mpr (hq ▸ patternUnits_add_lt f hz)
        _ = 2 * (q * (den * 2 ^ s)) := by ring
        _ ≤ 2 * U := Nat.mul_le_mul_left 2 hle
    exact iff_of_true (by omega) (.inl hbelow)
  · have heven := mul_two_pow_add_mod_two s q (k := f.W) (by cases f <;> decide)
    rw [Nat.add_assoc, hq, hq1, midpoint_mul, heven]
    obtain ⟨hn, hup⟩ | ⟨hn, hdown⟩ := hcases
    · exact iff_of_true (by omega) hup
    · exact iff_of_false (by omega) hdown
  · have habove : 2 * U < (patternUnits f z + patternUnits f (z + 1)) * den :=
      calc 2 * U < 2 * ((q + 1) * (den * 2 ^ s)) := by rw [Nat.succ_mul q]; omega
        _ = 2 * ((q + 1) * 2 ^ s) * den := by ring
        _ ≤ _ := Nat.mul_le_mul_right den (hq1 ▸ (lt_patternUnits_add f hz).le)
    exact iff_of_false (by omega) (by omega)

/-! ## Values -/

/-- A pattern's number without its sign bit: the exponent field above the mantissa field. -/
theorem toNat_mod_eq (f : Fmt) (x : BitVec f.N) : x.toNat % 2 ^ (f.N - 1) = f.expOf x * 2 ^ f.W + f.manOf x := by
  rw [f.toNat_eq x, Nat.add_assoc, Nat.mul_comm, Nat.mul_add_mod,
    Nat.mod_eq_of_lt (magnitude_pattern_lt f (f.expOf_lt x) (f.manOf_lt x))]

theorem magnitudeUnits_eq (f : Fmt) (x : BitVec f.N) :
    magnitudeUnits f x = patternUnits f (x.toNat % 2 ^ (f.N - 1)) := by
  have hM := f.manOf_lt x
  rw [toNat_mod_eq]
  cases hE : f.expOf x with
  | zero =>
    rw [magnitudeUnits, if_pos hE, patternUnits_shift f (.inl rfl) (by rw [pow_succ]; omega), pow_zero, Nat.mul_one]
  | succ e =>
    rw [magnitudeUnits_of_normal f x (by omega), hE, Nat.add_sub_cancel, Nat.succ_mul, Nat.add_assoc,
      patternUnits_shift f (.inr (by omega)) (by rw [pow_succ]; omega)]

/-- The value of pattern number `y` (00_scope.md R20). -/
def patternValue (f : Fmt) (y : Nat) : ℚ := (patternUnits f y : ℚ) / 2 ^ f.fracUnits

theorem patternValue_strictMono (f : Fmt) : StrictMono (patternValue f) := fun y z hyz =>
  div_lt_div_of_pos_right (Nat.cast_lt.mpr (patternUnits_strictMono f hyz)) (by positivity)

theorem patternValue_zero (f : Fmt) : patternValue f 0 = 0 := by simp [patternValue, patternUnits]

theorem patternValue_nonneg (f : Fmt) (y : Nat) : 0 ≤ patternValue f y := by unfold patternValue; positivity

theorem nativeValue_eq (f : Fmt) (x : BitVec f.N) :
    nativeValue f x =
      if f.expOf x = f.emaxField then none
      else some (signValue (f.signOf x) * patternValue f (x.toNat % 2 ^ (f.N - 1))) := by
  have hbias := f.bias_bounds.1
  have hunits : (2 : ℚ) ^ f.fracUnits = 2 ^ ((f.bias : ℤ) - 1) * 2 ^ f.W := by
    rw [Fmt.fracUnits, pow_add, ← zpow_natCast 2 (f.bias - 1), Nat.cast_sub hbias, Nat.cast_one]
  have hscale : (2 : ℚ) ^ (1 - (f.bias : ℤ)) = (2 ^ ((f.bias : ℤ) - 1))⁻¹ := by rw [← zpow_neg, neg_sub]
  simp only [nativeValue, patternValue, ← magnitudeUnits_eq]
  split
  · rfl
  cases hE : f.expOf x with
  | zero =>
    rw [if_neg (by omega), magnitudeUnits, if_pos hE, hunits, hscale]
    congr 1; field_simp
  | succ e =>
    have hexp : (2 : ℚ) ^ (((e + 1 : ℕ) : ℤ) - f.bias) = 2 ^ e * (2 ^ ((f.bias : ℤ) - 1))⁻¹ := by
      rw [← hscale, ← zpow_natCast, ← zpow_add₀ two_ne_zero]
      congr 1; push_cast; ring
    rw [if_pos (by omega), magnitudeUnits_of_normal f x (by omega), hE, hexp, Nat.add_sub_cancel, hunits]
    push_cast
    congr 1; field_simp

theorem abs_signValue_mul (sign : Bool) (q : ℚ) : |signValue sign * q| = |q| := by
  cases sign <;> simp [signValue]

theorem toNat_mod_lt_iff (f : Fmt) (x : BitVec f.N) :
    x.toNat % 2 ^ (f.N - 1) < f.emaxField * 2 ^ f.W ↔ f.expOf x ≠ f.emaxField := by
  have hM := f.manOf_lt x
  have hE := f.expOf_lt x
  have hmax := f.emax_eq
  rw [toNat_mod_eq]
  refine ⟨fun h he => by rw [he] at h; omega, fun he => ?_⟩
  calc f.expOf x * 2 ^ f.W + f.manOf x < (f.expOf x + 1) * 2 ^ f.W := by rw [Nat.succ_mul]; omega
    _ ≤ f.emaxField * 2 ^ f.W := Nat.mul_le_mul_right _ (by omega)

/-- A finite pattern's value, by its number without the sign bit. -/
theorem nativeValue_some {f : Fmt} {x : BitVec f.N} {v : ℚ} (hv : nativeValue f x = some v) :
    x.toNat % 2 ^ (f.N - 1) < f.emaxField * 2 ^ f.W ∧
      v = signValue (f.signOf x) * patternValue f (x.toNat % 2 ^ (f.N - 1)) := by
  rw [nativeValue_eq] at hv
  split at hv
  next => cases hv
  next hmax => exact ⟨(toNat_mod_lt_iff f x).mpr hmax, (Option.some.inj hv).symm⟩

theorem testBit_sign (sign : Bool) {k y : Nat} (hy : y < 2 ^ k) : (sign.toNat * 2 ^ k + y).testBit k = sign := by
  cases sign with
  | false => simpa using Nat.testBit_lt_two_pow hy
  | true => simpa [Nat.testBit_two_pow_add_eq] using Nat.testBit_lt_two_pow hy

theorem sign_add_lt (f : Fmt) (sign : Bool) {y : Nat} (hy : y < 2 ^ (f.N - 1)) :
    sign.toNat * 2 ^ (f.N - 1) + y < 2 ^ f.N := by
  have hN : 2 ^ f.N = 2 * 2 ^ (f.N - 1) := by rw [← pow_succ']; cases f <;> rfl
  have hsign := Nat.mul_le_mul_right (2 ^ (f.N - 1)) (Bool.toNat_le sign)
  omega

theorem lt_sign_of_finite {f : Fmt} {y : Nat} (hy : y < f.emaxField * 2 ^ f.W) : y < 2 ^ (f.N - 1) :=
  hy.trans (by cases f <;> decide)

/-- The value of a finite pattern number with a sign bit. -/
theorem nativeValue_ofNat (f : Fmt) (sign : Bool) {y : Nat} (hy : y < f.emaxField * 2 ^ f.W) :
    nativeValue f (BitVec.ofNat f.N (sign.toNat * 2 ^ (f.N - 1) + y)) =
      some (signValue sign * patternValue f y) := by
  have hlow := lt_sign_of_finite hy
  have hx : (BitVec.ofNat f.N (sign.toNat * 2 ^ (f.N - 1) + y)).toNat = sign.toNat * 2 ^ (f.N - 1) + y := by
    rw [BitVec.toNat_ofNat, Nat.mod_eq_of_lt (sign_add_lt f sign hlow)]
  have hmod : (sign.toNat * 2 ^ (f.N - 1) + y) % 2 ^ (f.N - 1) = y := by
    rw [Nat.mul_comm, Nat.mul_add_mod, Nat.mod_eq_of_lt hlow]
  have hsign : f.signOf (BitVec.ofNat f.N (sign.toNat * 2 ^ (f.N - 1) + y)) = sign := by
    rw [Fmt.signOf, BitVec.getLsbD, hx, testBit_sign sign hlow]
  have hfin := (toNat_mod_lt_iff f (BitVec.ofNat f.N (sign.toNat * 2 ^ (f.N - 1) + y))).mp (by rwa [hx, hmod])
  rw [nativeValue_eq, if_neg hfin, hsign, hx, hmod]

/-! ## The nearest pattern -/

theorem lt_roundedPattern_iff_value (f : Fmt) (num z : Nat) {den : Nat} (hden : 0 < den) :
    z < roundedPattern f num den ↔
      patternValue f z + patternValue f (z + 1) < 2 * ((num : ℚ) / den) ∨
      (patternValue f z + patternValue f (z + 1) = 2 * ((num : ℚ) / den) ∧ z % 2 = 1) := by
  have hpos : (0 : ℚ) < den := Nat.cast_pos.mpr hden
  have hunit : (0 : ℚ) < 2 ^ f.fracUnits := by positivity
  rw [lt_roundedPattern_iff f num z hden, patternValue, patternValue, ← add_div, mul_div_assoc',
    div_lt_div_iff₀ hunit hpos, div_eq_div_iff hunit.ne' hpos.ne', mul_assoc 2]
  norm_cast

/-- Settles O57: every smaller pattern lies below the middle to its successor, and no other does. -/
theorem nearestPatternKeepsExactValues : Obligations.NearestPatternKeepsExactValues := by
  intro f x num den v hden hv hq
  obtain ⟨hfin, rfl⟩ := nativeValue_some hv
  generalize x.toNat % 2 ^ (f.N - 1) = y at *
  have hU : num * 2 ^ f.fracUnits = patternUnits f y * den := by
    rw [abs_signValue_mul, abs_of_nonneg (patternValue_nonneg f y), patternValue,
      div_eq_div_iff (by positivity) (by positivity)] at hq
    exact_mod_cast hq
  have hy : roundedPattern f num den = y := by
    refine eq_of_forall_lt_iff fun z => ?_
    rw [lt_roundedPattern_iff f num z hden, hU, ← Nat.mul_assoc]
    by_cases hz : z < y
    · exact iff_of_true (.inl ((Nat.mul_lt_mul_right hden).mpr (patternUnits_add_lt f hz))) hz
    · have habove := (Nat.mul_lt_mul_right hden).mpr (lt_patternUnits_add f (Nat.not_lt.mp hz))
      exact iff_of_false (by omega) hz
  rw [nearestPattern_eq, hy, if_pos hfin]

/-- Of two numbers the one on the other side of the middle is farther away; both are as far only from the middle. -/
theorem nearer_of_middle {a b q : ℚ} (hne : a ≠ b) (hmid : (b - a) * (a + b - 2 * q) ≤ 0) :
    |b - q| ≤ |a - q| ∧ (|a - q| = |b - q| → a + b = 2 * q) := by
  have hsq : (b - q) ^ 2 - (a - q) ^ 2 = (b - a) * (a + b - 2 * q) := by ring
  refine ⟨sq_le_sq.mp (by linarith), fun heq => ?_⟩
  rw [(sq_eq_sq_iff_abs_eq_abs _ _).mpr heq.symm, sub_self] at hsq
  exact sub_eq_zero.mp ((mul_eq_zero.mp hsq.symm).resolve_left (sub_ne_zero.mpr hne.symm))

/-- No pattern is nearer than the rounded one, and one as near has its value or finds it even. -/
theorem roundedPattern_nearest (f : Fmt) (num z : Nat) {den : Nat} (hden : 0 < den) :
    |patternValue f (roundedPattern f num den) - (num : ℚ) / den| ≤ |patternValue f z - (num : ℚ) / den| ∧
      (|patternValue f z - (num : ℚ) / den| = |patternValue f (roundedPattern f num den) - (num : ℚ) / den| →
        patternValue f z = patternValue f (roundedPattern f num den) ∨ roundedPattern f num den % 2 = 0) := by
  have hiff := lt_roundedPattern_iff_value f num (hden := hden)
  have hmono := patternValue_strictMono f
  generalize roundedPattern f num den = y at *
  generalize (num : ℚ) / den = q at *
  obtain hz | rfl | hz := Nat.lt_trichotomy z y
  · obtain ⟨m, rfl⟩ : ∃ m, y = m + 1 := ⟨y - 1, by omega⟩
    have hle : patternValue f z ≤ patternValue f m := hmono.monotone (Nat.le_of_lt_succ hz)
    have hlt : patternValue f z < patternValue f (m + 1) := hmono hz
    have hmid := (hiff m).mp (Nat.lt_succ_self m)
    have hsum : patternValue f z + patternValue f (m + 1) ≤ 2 * q := by
      obtain h | ⟨h, -⟩ := hmid <;> linarith
    have hside := mul_nonpos_of_nonneg_of_nonpos (sub_nonneg.mpr hlt.le) (sub_nonpos.mpr hsum)
    refine (nearer_of_middle hlt.ne hside).imp_right fun hfar heq => .inr ?_
    obtain h | ⟨-, hodd⟩ := hmid
    · linarith [hfar heq]
    · omega
  · exact ⟨le_refl _, fun _ => .inl rfl⟩
  · have hle : patternValue f (y + 1) ≤ patternValue f z := hmono.monotone hz
    have hlt : patternValue f y < patternValue f z := hmono hz
    have hmid := mt (hiff y).mpr (Nat.lt_irrefl y)
    rw [not_or, not_lt, not_and] at hmid
    obtain ⟨hsum, heven⟩ := hmid
    have hside := mul_nonpos_of_nonpos_of_nonneg (sub_nonpos.mpr hlt.le)
      (by linarith : 0 ≤ patternValue f z + patternValue f y - 2 * q)
    refine (nearer_of_middle hlt.ne' hside).imp_right fun hfar heq => .inr ?_
    exact Nat.mod_two_ne_one.mp (heven (by linarith [hfar heq]))

theorem abs_signValue_sub (sign sign' : Bool) (a q : ℚ) :
    |signValue sign * a - signValue sign' * q| = if sign = sign' then |a - q| else |a + q| := by
  cases sign <;> cases sign'
  case true.true => rw [← abs_neg]; simp [signValue, neg_add_eq_sub]
  case true.false => rw [← abs_neg]; simp [signValue, add_comm]
  all_goals simp [signValue]

/-- A pattern number nearest to a magnitude is, with a sign bit, the nearest pattern to the signed value: those of the
other sign are at least as far as their own magnitudes. -/
theorem isNearest_sign (f : Fmt) (sign : Bool) {y : Nat} {q : ℚ} (hy : y < f.emaxField * 2 ^ f.W) (hq : 0 ≤ q)
    (hnear : ∀ z, |patternValue f y - q| ≤ |patternValue f z - q| ∧
      (|patternValue f z - q| = |patternValue f y - q| → patternValue f z = patternValue f y ∨ y % 2 = 0)) :
    IsNearest f (sign.toNat * 2 ^ (f.N - 1) + y) (signValue sign * q) := by
  have heven := mul_two_pow_add_mod_two sign.toNat y (k := f.N - 1) (by cases f <;> decide)
  refine ⟨_, nativeValue_ofNat f sign hy, fun x v hv => ?_⟩
  obtain ⟨-, rfl⟩ := nativeValue_some hv
  rw [heven, abs_signValue_sub, abs_signValue_sub, if_pos rfl]
  obtain ⟨hle, heq⟩ := hnear (x.toNat % 2 ^ (f.N - 1))
  have hp := patternValue_nonneg f (x.toNat % 2 ^ (f.N - 1))
  by_cases hsign : f.signOf x = sign
  · rw [if_pos hsign, hsign]
    exact ⟨hle, fun h => (heq h).imp_left fun h => by rw [h]⟩
  · have hfar : |patternValue f (x.toNat % 2 ^ (f.N - 1)) - q| ≤ patternValue f (x.toNat % 2 ^ (f.N - 1)) + q :=
      abs_le.mpr ⟨by linarith, by linarith⟩
    rw [if_neg hsign, abs_of_nonneg (add_nonneg hp hq)]
    refine ⟨hle.trans hfar, fun h => (heq (le_antisymm (hfar.trans_eq h) hle)).imp_left fun hval => ?_⟩
    have hzero : patternValue f y = 0 := by
      have hsq : (patternValue f y + q) ^ 2 = (patternValue f y - q) ^ 2 := by rw [← sq_abs (_ - q), ← h, hval]
      obtain hy0 | rfl : patternValue f y = 0 ∨ q = 0 := mul_eq_zero.mp (by linarith)
      · exact hy0
      · simpa [patternValue_zero] using (hnear 0).1
    rw [hval, hzero, mul_zero, mul_zero]

/-- Half a spacing above the largest finite value is the middle to the first non-finite pattern's number. -/
theorem pastTheLargest_iff (f : Fmt) (q : ℚ) :
    PastTheLargest f q ↔
      patternValue f (f.emaxField * 2 ^ f.W - 1) + patternValue f (f.emaxField * 2 ^ f.W - 1 + 1) ≤ 2 * q := by
  have hlast : f.emaxField * 2 ^ f.W - 1 = (f.emaxField - 2) * 2 ^ f.W + (2 ^ (f.W + 1) - 1) := by cases f <;> rfl
  have hpos := Nat.one_le_two_pow (n := f.W + 1)
  have hexp : f.emaxField - 2 = f.emaxField - f.bias - f.W - 2 + 1 + f.fracUnits := by cases f <;> rfl
  have hlo : 2 ^ f.W ≤ 2 ^ (f.W + 1) - 1 := by cases f <;> decide
  have hsum : patternValue f (f.emaxField * 2 ^ f.W - 1) + patternValue f (f.emaxField * 2 ^ f.W - 1 + 1) =
      2 * ((2 ^ (f.W + 2) - 1) * 2 ^ (f.emaxField - f.bias - f.W - 2)) := by
    rw [hlast, Nat.add_assoc, Nat.sub_add_cancel hpos, patternValue, patternValue,
      patternUnits_shift f (.inr hlo) (Nat.sub_le _ _),
      patternUnits_shift f (.inr (hlo.trans (Nat.sub_le _ _))) le_rfl, ← add_div, hexp,
      div_eq_iff (by positivity)]
    push_cast [Nat.cast_sub hpos]
    ring
  rw [hsum, PastTheLargest, mul_le_mul_iff_right₀ two_pos]

theorem isNearest_of_nearestPattern {f : Fmt} {num den y : Nat} (hden : 0 < den)
    (hy : nearestPattern f num den = some y) (sign : Bool) :
    y < 2 ^ (f.N - 1) ∧ IsNearest f (sign.toNat * 2 ^ (f.N - 1) + y) (signValue sign * ((num : ℚ) / den)) := by
  rw [nearestPattern_eq] at hy
  split at hy
  next hfin =>
    obtain rfl := Option.some.inj hy
    exact ⟨lt_sign_of_finite hfin,
      isNearest_sign f sign hfin (by positivity) fun z => roundedPattern_nearest f num z hden⟩
  next => cases hy

/-- The last finite pattern has an odd number, so that the middle above it belongs to the non-finite ones. -/
theorem nearestPattern_eq_none_iff (f : Fmt) (num : Nat) {den : Nat} (hden : 0 < den) :
    nearestPattern f num den = none ↔ PastTheLargest f ((num : ℚ) / den) := by
  have hodd : (f.emaxField * 2 ^ f.W - 1) % 2 = 1 := by cases f <;> rfl
  have hlast : ¬ roundedPattern f num den < f.emaxField * 2 ^ f.W ↔
      f.emaxField * 2 ^ f.W - 1 < roundedPattern f num den := by omega
  rw [nearestPattern_eq, ite_eq_right_iff, pastTheLargest_iff, le_iff_lt_or_eq]
  simp only [reduceCtorEq, imp_false, hlast, lt_roundedPattern_iff_value f num _ hden, hodd, and_true]

/-- Settles O58: the rounded pattern number is found by counting the middles below the fraction. -/
theorem nearestPatternIsNearest : Obligations.NearestPatternIsNearest := by
  intro f num den hden
  refine ⟨fun y hy => ?_, nearestPattern_eq_none_iff f num hden⟩
  obtain ⟨hlow, hnear⟩ := isNearest_of_nearestPattern hden hy false
  exact ⟨hlow, by simpa [signValue] using hnear⟩

end Sys2Proof.Machine
end

section
/-! The text of a decimal literal (30_encoding.md R95; the grammar is log 11's), read part by part. -/

namespace Sys2Proof.Machine

/-! ## Digits -/

/-- Digits are read as such, and are none of the marks between the parts of a literal. -/
theorem digitChar_spec (d : Fin 10) :
    digitValue (Char.ofNat (48 + d.val)) = some d.val ∧
      Char.ofNat (48 + d.val) ≠ 'e' ∧ Char.ofNat (48 + d.val) ≠ '.' ∧ Char.ofNat (48 + d.val) ≠ '-' := by
  revert d; decide

theorem readDigits_digitText (acc : Nat) (ds : List (Fin 10)) :
    readDigits 10 acc (digitText ds) = some (ds.foldl (fun acc d => 10 * acc + d.val) acc) := by
  induction ds generalizing acc with
  | nil => rfl
  | cons d ds ih =>
    rw [digitText, List.map_cons, ← digitText, readDigits, (digitChar_spec d).1, List.foldl_cons, ← ih, Nat.mul_comm]
    exact if_pos d.isLt

theorem readNumber_digitText {ds : List (Fin 10)} (hds : ds ≠ []) :
    readNumber 10 (digitText ds) = some (digitsNumber ds) := by
  rw [readNumber, if_neg (by simpa [digitText] using hds), readDigits_digitText, digitsNumber]

theorem mem_digitText {ds : List (Fin 10)} {c : Char} (hc : c ∈ digitText ds) : c ≠ 'e' ∧ c ≠ '.' ∧ c ≠ '-' := by
  obtain ⟨d, -, rfl⟩ := List.mem_map.mp hc
  exact (digitChar_spec d).2

theorem digitText_eq_cons {ds : List (Fin 10)} (hds : ds ≠ []) : ∃ c rest, digitText ds = c :: rest ∧ c ≠ '-' := by
  obtain ⟨d, ds, rfl⟩ := List.exists_cons_of_ne_nil hds
  exact ⟨_, _, rfl, (digitChar_spec d).2.2.2⟩

/-! ## The parts of a literal -/

/-- The point with its digits. -/
def fractionText : Option (List (Fin 10)) → List Char
  | none => []
  | some ds => '.' :: digitText ds

/-- The exponent with its mark and its sign. -/
def exponentText : Option (Bool × List (Fin 10)) → List Char
  | none => []
  | some (eneg, ds) => 'e' :: (if eneg then ['-'] else []) ++ digitText ds

/-- The exponent's number. -/
def exponentNumber : Option (Bool × List (Fin 10)) → Int
  | none => 0
  | some (eneg, ds) => if eneg then -(digitsNumber ds : Int) else digitsNumber ds

/-- The literal's digits and point. -/
def mantissaText (whole : List (Fin 10)) (frac : Option (List (Fin 10))) : List Char :=
  digitText whole ++ fractionText frac

/-- The format's mark. -/
def formatText : Fmt → List Char
  | .b32 => ['f', '3', '2', '(']
  | .b64 => ['f', '6', '4', '(']

/-- The literal's magnitude as a fraction: its numerator. -/
def literalNum (whole : List (Fin 10)) (frac : Option (List (Fin 10)))
    (exponent : Option (Bool × List (Fin 10))) : Nat :=
  digitsNumber (whole ++ frac.getD []) * 10 ^ (exponentNumber exponent).toNat

/-- The literal's magnitude as a fraction: its denominator. -/
def literalDen (frac : Option (List (Fin 10))) (exponent : Option (Bool × List (Fin 10))) : Nat :=
  10 ^ (frac.getD []).length * 10 ^ (-exponentNumber exponent).toNat

section

variable (f : Fmt) (neg : Bool) (whole : List (Fin 10)) (frac : Option (List (Fin 10)))
  (exponent : Option (Bool × List (Fin 10)))

theorem literalText_eq :
    literalText f neg whole frac exponent =
      formatText f ++ (if neg then ['-'] else []) ++ digitText whole ++ fractionText frac ++ exponentText exponent ++
        [')'] := by
  cases f <;> rfl

theorem literalDen_pos : 0 < literalDen frac exponent := by unfold literalDen; positivity

theorem literalNum_div_literalDen :
    (literalNum whole frac exponent : ℚ) / literalDen frac exponent = literalMagnitude whole frac exponent := by
  have hmagnitude : literalMagnitude whole frac exponent = (digitsNumber (whole ++ frac.getD []) : ℚ) /
      10 ^ (frac.getD []).length * 10 ^ exponentNumber exponent := rfl
  have hscale : (10 : ℚ) ^ exponentNumber exponent =
      10 ^ (exponentNumber exponent).toNat / 10 ^ (-exponentNumber exponent).toNat := by
    rw [← zpow_natCast, ← zpow_natCast, ← zpow_sub₀ (by norm_num), Int.toNat_sub_toNat_neg]
  rw [hmagnitude, hscale, literalNum, literalDen]
  push_cast
  rw [div_mul_div_comm]

/-! ## Reading the parts -/

theorem mem_mantissaText {c : Char} (hc : c ∈ mantissaText whole frac) : c ≠ 'e' ∧ c ≠ '-' := by
  have hdigit {ds : List (Fin 10)} (hc : c ∈ digitText ds) : c ≠ 'e' ∧ c ≠ '-' := (mem_digitText hc).imp_right And.right
  obtain hc | hc := List.mem_append.mp hc
  · exact hdigit hc
  cases frac with
  | none => cases hc
  | some places =>
    obtain rfl | hc := List.mem_cons.mp hc
    · decide
    · exact hdigit hc

/-- A text is cut before the mark that a part of it begins with. -/
theorem cut_at_mark {mark : Char} {front part : List Char} (hfront : ∀ c ∈ front, c ≠ mark)
    (hpart : ∀ c ∈ part.head?, c = mark) :
    (front ++ part).takeWhile (· != mark) = front ∧ (front ++ part).dropWhile (· != mark) = part := by
  have hpos : ∀ c ∈ front, (c != mark) = true := fun c hc => bne_iff_ne.mpr (hfront c hc)
  rw [List.takeWhile_append_of_pos hpos, List.dropWhile_append_of_pos hpos]
  cases part with
  | nil => simp
  | cons c rest => simp [hpart c rfl]

theorem cut_exponent :
    (mantissaText whole frac ++ exponentText exponent).takeWhile (· != 'e') = mantissaText whole frac ∧
      (mantissaText whole frac ++ exponentText exponent).dropWhile (· != 'e') = exponentText exponent := by
  refine cut_at_mark (fun c hc => (mem_mantissaText _ _ hc).1) ?_
  rcases exponent with - | ⟨eneg, ds⟩ <;> simp [exponentText]

theorem cut_fraction :
    (mantissaText whole frac).takeWhile (· != '.') = digitText whole ∧
      ((mantissaText whole frac).dropWhile (· != '.')).drop 1 = digitText (frac.getD []) := by
  obtain ⟨htake, hdrop⟩ := cut_at_mark (mark := '.') (front := digitText whole) (part := fractionText frac)
    (fun c hc => (mem_digitText hc).2.1) (by cases frac <;> simp [fractionText])
  rw [mantissaText, htake, hdrop]
  cases frac <;> exact ⟨rfl, rfl⟩

theorem head_ne_minus : ∀ c ∈ (mantissaText whole frac ++ exponentText exponent).head?, c ≠ '-' := by
  intro c hc
  cases hm : mantissaText whole frac with
  | cons a rest =>
    obtain rfl : a = c := by simpa [hm] using hc
    exact (mem_mantissaText _ _ (hm ▸ List.mem_cons_self)).2
  | nil =>
    rcases exponent with - | ⟨eneg, ds⟩
    · simp [hm, exponentText] at hc
    · obtain rfl : 'e' = c := by simpa [hm, exponentText] using hc
      decide

theorem readFloat_text {d : List Char} (hd : ∀ c ∈ d.head?, c ≠ '-') :
    readFloat f ((if neg then ['-'] else []) ++ d ++ [')']) =
      (readDecimal d).bind fun q => signedPattern f neg q.1 q.2 := by
  cases neg with
  | true => simp [readFloat]
  | false =>
    cases d with
    | nil => rfl
    | cons c rest => simp [readFloat, hd c rfl]

variable {whole frac exponent} (hdigits : whole ++ frac.getD [] ≠ []) (hexp : ∀ e ∈ exponent, e.2 ≠ [])
include hdigits hexp

theorem readDecimal_text :
    readDecimal (mantissaText whole frac ++ exponentText exponent) =
      some (literalNum whole frac exponent, literalDen frac exponent) := by
  obtain ⟨htake, hdrop⟩ := cut_exponent whole frac exponent
  obtain ⟨hwhole, hfrac⟩ := cut_fraction whole frac
  have hnumber : readNumber 10 (digitText whole ++ digitText (frac.getD [])) =
      some (digitsNumber (whole ++ frac.getD [])) := by
    rw [digitText, digitText, ← List.map_append, ← digitText, readNumber_digitText hdigits]
  have hlen : (digitText (frac.getD [])).length = (frac.getD []).length := List.length_map _
  simp only [readDecimal, htake, hdrop, hwhole, hfrac, hnumber, hlen]
  rcases exponent with - | ⟨eneg, ds⟩
  · have hmark : 'e' ∉ mantissaText whole frac := fun hc => (mem_mantissaText _ _ hc).1 rfl
    simp [literalNum, literalDen, exponentText, exponentNumber, hmark]
  · have hexpdigits := readNumber_digitText (hexp (eneg, ds) rfl)
    cases eneg with
    | true => simp [literalNum, literalDen, exponentText, exponentNumber, hexpdigits]
    | false =>
      obtain ⟨c, rest, htext, hc⟩ := digitText_eq_cons (hexp (false, ds) rfl)
      rw [htext] at hexpdigits
      simp [literalNum, literalDen, exponentText, exponentNumber, htext, hc, hexpdigits]

theorem readPattern_literalText :
    readPattern (literalText f neg whole frac exponent) =
      signedPattern f neg (literalNum whole frac exponent) (literalDen frac exponent) := by
  have hread := readFloat_text f neg (head_ne_minus whole frac exponent)
  have hformat : readPattern (literalText f neg whole frac exponent) = readFloat f
      ((if neg then ['-'] else []) ++ (mantissaText whole frac ++ exponentText exponent) ++ [')']) := by
    rw [literalText_eq]
    cases f <;> simp [formatText, readPattern, mantissaText]
  rw [hformat, hread, readDecimal_text hdigits hexp]
  rfl

end

/-- Settles O59: the text is read as its sign and the fraction of its magnitude, which `nearestPattern` rounds. -/
theorem literalsReadAsTheirNearestPattern : Obligations.LiteralsReadAsTheirNearestPattern := by
  intro f neg whole frac exponent hdigits hexp
  have hden := literalDen_pos frac exponent
  rw [readPattern_literalText f neg hdigits hexp, signedPattern, ← literalNum_div_literalDen]
  refine ⟨fun y hy => ?_, ?_⟩
  · obtain ⟨magnitude, hmagnitude, rfl⟩ := Option.map_eq_some_iff.mp hy
    obtain ⟨hlow, hnear⟩ := isNearest_of_nearestPattern hden hmagnitude neg
    refine ⟨sign_add_lt f neg hlow, testBit_sign neg hlow, ?_⟩
    cases neg <;> simpa [signValue] using hnear
  · rw [Option.map_eq_none_iff, nearestPattern_eq_none_iff f _ hden]

end Sys2Proof.Machine
end

section
/-! The field extractor and validator on any field set: the slices of a pattern's sequence are its word fields, and the
checks run in the document's order. -/

namespace Sys2Proof.Machine

/-- Settles O35: each extracted sequence has its field's width, so it is the sequence of its own word, which
`word_extract` gives. -/
theorem extractedFieldsAreTheWordFields : Obligations.ExtractedFieldsAreTheWordFields := by
  intro f x
  obtain ⟨hsign, hlenE, -, hlenM, -⟩ := extract_seq f x
  obtain ⟨hE, hM⟩ := word_extract f x
  refine ⟨hsign, ?_, ?_⟩
  · rw [← hE, seq_word f.K _ hlenE]
  · rw [← hM, seq_word f.W _ hlenM]

theorem allOnes_iff_forall (S : BitSeq) : allOnes S = true ↔ ∀ b ∈ S, b = true := List.all_eq_true

theorem allOnes_eq_false_iff (S : BitSeq) : allOnes S = false ↔ ∃ b ∈ S, b = false := by
  simp [allOnes]

theorem allZeros_iff_forall (S : BitSeq) : allZeros S = true ↔ ∀ b ∈ S, b = false := by
  simp [allZeros]

theorem allZeros_eq_false_iff (S : BitSeq) : allZeros S = false ↔ ∃ b ∈ S, b = true := by
  simp [allZeros]

/-- Settles O36: each clause decides the conditions of `validate` as far as the first that answers. -/
theorem validatorOrder : Obligations.ValidatorOrder := by
  intro f fs
  simp only [← allOnes_iff_forall, ← allOnes_eq_false_iff, ← allZeros_iff_forall, ← allZeros_eq_false_iff]
  refine ⟨fun hlen => ?_, fun hlen hones => ?_, fun hlen hones hzeros => ?_, fun hlen hones hzeros => ?_⟩
  · rw [validate, if_pos hlen]
  · rw [validate, if_neg (not_not_intro hlen), if_pos hones]
  · simp [validate, hlen, hones, hzeros]
  · simp [validate, hlen, hones, hzeros]

end Sys2Proof.Machine
end

section
/-! The exponent converter's operations on the port, and the round trips between its two directions
(41_exponent_bias_converter.md R134 to R138). -/

namespace Sys2Proof.Machine

/-! ## The two directions as 64-bit results -/

/-- Sign extension turns the signed exponent into the field less the bias modulo 2^64. -/
theorem sext64_expDecodeUnit (f : Fmt) (E : BitVec f.K) :
    sext64 (expDecodeUnit f E) = if E = 0 then 0 else E.setWidth 64 - BitVec.ofNat 64 f.bias := by
  rw [sext64, BitVec.signExtend, toInt_expDecodeUnit]
  by_cases hE : E = 0
  · rw [if_pos hE, if_pos (by rw [hE]; rfl)]
    rfl
  · have hnum : E.toNat ≠ 0 := fun h => hE (BitVec.eq_of_toNat_eq h)
    rw [if_neg hE, if_neg hnum, BitVec.eq_sub_iff_add_eq, ← BitVec.ofInt_natCast, ← BitVec.ofInt_add,
      Int.sub_add_cancel, BitVec.ofInt_natCast, BitVec.ofNat_toNat]

/-- A sum that fits the field is the same sum on the whole result. -/
theorem place_expEncodeUnit (f : Fmt) (n : BitVec 16) :
    place (expEncodeUnit f n) =
      if f.emaxField - f.bias < n.toNat then (10, 0) else (0, n.setWidth 64 + BitVec.ofNat 64 f.bias) := by
  rw [expEncodeUnit, place_unitOut, expEncode_eq_ite]
  split
  · rfl
  next hfit =>
    obtain ⟨-, hlt, -⟩ := f.bias_bounds
    have hsum : n.toNat + f.bias < 2 ^ f.K := by
      have hemax := f.emax_eq
      omega
    rw [Except.map, word_fixedBin, respond_ok_eq_ofNat, BitVec.toNat_ofNat, Nat.mod_eq_of_lt hsum, BitVec.ofNat_add,
      BitVec.ofNat_toNat]

/-! ## The four operations -/

/-- Settles O26: the row of the opcode table, and the decode direction on 8-bit fields. -/
theorem expdec32Responds : Obligations.Expdec32Responds := by
  refine ⟨fun a b => by simp [decode], fun E s => ?_⟩
  rw [exec, execExpdec32, sext64_expDecodeUnit, respond_ok, BitVec.setWidth_eq]
  rfl

/-- Settles O27: the row of the opcode table, and the decode direction on 11-bit fields. -/
theorem expdec64Responds : Obligations.Expdec64Responds := by
  refine ⟨fun a b => by simp [decode], fun E s => ?_⟩
  rw [exec, execExpdec64, sext64_expDecodeUnit, respond_ok, BitVec.setWidth_eq]
  rfl

/-- Settles O28: the row of the opcode table, and the encode direction, whose bound is 255 - 127. -/
theorem expenc32Responds : Obligations.Expenc32Responds := by
  refine ⟨fun a b => by simp [decode], fun n s => ?_⟩
  rw [exec, execExpenc32, place_expEncodeUnit]
  rfl

/-- Settles O29: the row of the opcode table, and the encode direction, whose bound is 2047 - 1023. -/
theorem expenc64Responds : Obligations.Expenc64Responds := by
  refine ⟨fun a b => by simp [decode], fun n s => ?_⟩
  rw [exec, execExpenc64, place_expEncodeUnit]
  rfl

/-! ## Round trips -/

theorem expDecode_of_zero (f : Fmt) {E : BitSeq} (hzero : binToNat E = 0) : expDecode f E = 0 := if_pos hzero

theorem expDecode_of_pos (f : Fmt) {E : BitSeq} (hpos : 0 < binToNat E) :
    expDecode f E = (binToNat E : Int) - f.bias := if_neg hpos.ne'

/-- Inversion of R132 and R133: no field below the bias is encoded from anything, every other one from one number. -/
theorem expEncode_eq_ok_iff (f : Fmt) (n : Nat) {E : BitSeq} (hlen : E.length = f.K) :
    expEncode f n = .ok E ↔ binToNat E = n + f.bias := by
  have hmax := binToNat_le_emaxField f E hlen
  constructor
  · intro henc
    by_cases hfit : n + f.bias ≤ f.emaxField
    · obtain ⟨E', henc', -, hval⟩ := expEncode_eq f n hfit
      obtain rfl : E' = E := Except.ok.inj (henc'.symm.trans henc)
      exact hval
    · rw [expEncode, if_pos (not_le.mp hfit)] at henc
      cases henc
  · intro hval
    obtain ⟨E', henc, hlen', hval'⟩ := expEncode_eq f n (hval ▸ hmax)
    rw [henc, bitSeq_ext (hlen'.trans hlen.symm) (hval'.trans hval.symm)]

/-- Settles O37: a field encodes some number exactly when it is at least the bias, and then decoding takes away what
encoding added; the field 0, whose exponent is 0, comes back as the bias. -/
theorem exponentRoundTrips : Obligations.ExponentRoundTrips := by
  intro f
  obtain ⟨hbias, hlt, -⟩ := f.bias_bounds
  refine ⟨fun n hn => ?_, fun E hlen hE => ?_, fun E _ hzero => ?_, fun E hlen hpos hE => ⟨?_, fun n henc => ?_⟩⟩
  · obtain ⟨E, henc, -, hval⟩ := expEncode_eq f n (by omega)
    rw [henc, Except.map, expDecode_of_pos f (by omega), hval, Nat.cast_add, add_sub_cancel_right]
  · rw [expEncode_eq_ok_iff f _ hlen, expDecode_of_pos f (by omega)]
    omega
  · rw [expDecode_of_zero f hzero, Int.toNat_zero, expEncode_eq_ite, if_neg (Nat.not_lt_zero _), Nat.zero_add]
  · rw [expDecode_of_pos f hpos]
    omega
  · rw [expEncode_eq_ok_iff f n hlen] at henc
    omega

end Sys2Proof.Machine
end

section
/-! The mantissa normalizer's decode direction: the magnitude as an exact rational, the pattern of that value, and the
two operations on the port (42_mantissa_normalizer.md R150 to R155, R170, R171). -/

namespace Sys2Proof.Machine

/-! ## The two operations -/

/-- Settles O30: the row of the opcode table, and the unit's response on 23-bit fields. -/
theorem mandec32Responds : Obligations.Mandec32Responds := by
  refine ⟨fun a b => by simp [decode], fun M e s => ?_⟩
  rw [exec, execMandec32, place_manDecodeUnit]
  rfl

/-- Settles O31: the row of the opcode table, and the unit's response on 52-bit fields. -/
theorem mandec64Responds : Obligations.Mandec64Responds := by
  refine ⟨fun a b => by simp [decode], fun M e s => ?_⟩
  rw [exec, execMandec64, place_manDecodeUnit]
  rfl

/-! ## The magnitude as a rational -/

/-- Behind its first bit a fraction has half its weight. -/
theorem fractionValue_cons (b : Bool) (lo : BitSeq) :
    fractionValue (b :: lo) = ((b.toNat : ℚ) + fractionValue lo) / 2 := by
  rw [fractionValue, List.length_cons, Finset.sum_range_succ', fractionValue, add_div, Finset.sum_div, add_comm]
  simp only [List.getD_cons_zero, List.getD_cons_succ, pow_succ, pow_zero]
  congr 1
  · ring
  · exact Finset.sum_congr rfl fun j _ => by ring

/-- The sum of the fraction bits is the number of their sequence, cut down by its length. -/
theorem fractionValue_eq (lo : BitSeq) : fractionValue lo = (binToNat lo : ℚ) / 2 ^ lo.length := by
  induction lo with
  | nil => simp [fractionValue]
  | cons b lo ih =>
    rw [fractionValue_cons, ih, binToNat_cons, List.length_cons, pow_succ]
    push_cast
    field_simp

/-- The model's sum in units of 2^-u is the sum of the rule. -/
theorem fracSum_div (u : Nat) {lo : BitSeq} (hlen : lo.length ≤ u) : (fracSum u lo : ℚ) / 2 ^ u = fractionValue lo := by
  have hu : (2 : ℚ) ^ u = 2 ^ lo.length * 2 ^ (u - lo.length) := by rw [← pow_add, Nat.add_sub_cancel' hlen]
  rw [fracSum_eq u lo hlen, fractionValue_eq, hu]
  push_cast
  field_simp

/-- R150: the model takes the rule's branches and in each has the rule's value, in units of 2^-W. -/
theorem magnitudeValue_eq_map (f : Fmt) (M : BitSeq) (e : Int) :
    magnitudeValue f M e = (manValue f M e).map fun m : Nat => (m : ℚ) / 2 ^ f.W := by
  simp only [magnitudeValue, manValue]
  split
  · simp [Except.map]
  split
  · rfl
  · have hlen : (slice M e.toNat f.W).length ≤ f.W := by rw [length_slice]; omega
    rw [Except.map, ← fracSum_div f.W hlen]
    push_cast
    rw [add_div, mul_div_cancel_right₀ _ (by positivity)]

/-- R154: the magnitude without its relocated radix point. -/
theorem magnitudeValue_of_in_range (f : Fmt) {M : BitSeq} {e : Int} (hlen : M.length = f.W) (h0 : 0 ≤ e) (hW : e ≤ f.W)
    (hz : ¬ (binToNat M = 0 ∧ e = 0)) :
    magnitudeValue f M e = .ok ((1 + (binToNat M : ℚ) / 2 ^ f.W) * 2 ^ e.toNat) := by
  rw [magnitudeValue_eq_map, manValue_eq f M e hlen, if_neg hz, if_neg (by omega), Except.map]
  push_cast
  congr 1
  field_simp

/-- Settles O39: both are computed by the same cases, and R154 follows from the model's closed form. -/
theorem magnitudeIsExact : Obligations.MagnitudeIsExact := fun f M e hlen =>
  ⟨(magnitudeValue_eq_map f M e).symm, magnitudeValue_of_in_range f hlen⟩

/-! ## The magnitude's pattern -/

theorem manDecode_eq_error_iff (f : Fmt) (M : BitSeq) (e : Int) (err : Err) :
    manDecode f M e = .error err ↔ magnitudeValue f M e = .error err := by
  rw [magnitudeValue_eq_map, manDecode]
  cases manValue f M e with
  | error err' => simp [Except.map]
  | ok mag =>
    by_cases hmag : mag = 0 <;> simp [Except.map, hmag]

/-- The fields of a pattern number below the sign bit. -/
theorem fields_of_toNat_eq (f : Fmt) {y : BitVec f.N} {E M : Nat} (hE : E < 2 ^ f.K) (hM : M < 2 ^ f.W)
    (hy : y.toNat = E * 2 ^ f.W + M) : f.signOf y = false ∧ f.expOf y = E ∧ f.manOf y = M := by
  refine ⟨?_, ?_, ?_⟩
  · rw [Fmt.signOf, BitVec.getLsbD, hy]
    exact Nat.testBit_lt_two_pow (magnitude_pattern_lt f hE hM)
  · rw [Fmt.expOf_eq, hy, Nat.mul_comm, Nat.mul_add_div (Nat.two_pow_pos _), Nat.div_eq_of_lt hM, Nat.add_zero,
      Nat.mod_eq_of_lt hE]
  · rw [Fmt.manOf_eq, hy, Nat.mul_comm, Nat.mul_add_mod, Nat.mod_eq_of_lt hM]

theorem nativeValue_zero (f : Fmt) : nativeValue f 0 = some 0 := by
  have hfin : 0 < f.emaxField * 2 ^ f.W := Nat.mul_pos (by cases f <;> decide) (Nat.two_pow_pos _)
  simpa [patternValue_zero] using nativeValue_ofNat f false hfin

/-- The native value of a normal pattern with sign bit 0 whose field is not below the bias. -/
theorem nativeValue_of_fields (f : Fmt) {y : BitVec f.N} {n : Nat} (hsign : f.signOf y = false)
    (hE : f.expOf y = n + f.bias) (hfin : n + f.bias < f.emaxField) :
    nativeValue f y = some ((1 + (f.manOf y : ℚ) / 2 ^ f.W) * 2 ^ n) := by
  have hbias := f.bias_bounds.1
  have hexp : ((n + f.bias : ℕ) : ℤ) - f.bias = n := by omega
  simp only [nativeValue, hsign, hE, hexp, zpow_natCast]
  rw [if_neg hfin.ne, if_pos (by omega)]
  simp [signValue]

/-- Settles O40: the pattern of the special case is +0; every other one has the fields `e + BIAS` and `M`, whose native
value is the closed form of R154. -/
theorem magnitudePatternHasItsValue : Obligations.MagnitudePatternHasItsValue := by
  intro f M e hlen
  refine ⟨manDecode_eq_error_iff f M e, fun y hy => ?_⟩
  have hM : binToNat M < 2 ^ f.W := hlen ▸ binToNat_lt M
  by_cases hspecial : binToNat M = 0 ∧ e = 0
  · obtain ⟨hzero, rfl⟩ := hspecial
    rw [manDecode_of_zero f M hlen hzero] at hy
    obtain rfl := Except.ok.inj hy
    refine ⟨by simp [Fmt.signOf], 0, ?_, nativeValue_zero f⟩
    rw [magnitudeValue, if_pos ⟨(allZeros_iff M).mpr hzero, rfl⟩]
  by_cases hrange : 0 ≤ e ∧ e ≤ f.W
  · obtain ⟨h0, hW⟩ := hrange
    obtain ⟨y', hy', hval⟩ := manDecode_ok f M e hlen h0 hW hspecial
    obtain rfl := Except.ok.inj (hy'.symm.trans hy)
    have hfin : e.toNat + f.bias < f.emaxField := by have := f.bias_add_W_lt; omega
    have hmax : f.emaxField < 2 ^ f.K := by have := f.emax_eq; have := Nat.two_pow_pos f.K; omega
    obtain ⟨hsign, hE, hman⟩ := fields_of_toNat_eq f (hfin.trans hmax) hM hval
    exact ⟨hsign, _, magnitudeValue_of_in_range f hlen h0 hW hspecial, hman ▸ nativeValue_of_fields f hsign hE hfin⟩
  · rw [manDecode_of_out_of_range f M e hlen hrange] at hy
    cases hy

end Sys2Proof.Machine
end

section
/-! The mantissa normalizer's encode direction: the binary expansions of both parts are as short as their values allow,
and with them the buffer (42_mantissa_normalizer.md R160, R161, R164). -/

namespace Sys2Proof.Machine

/-! ## The integer part -/

/-- Settles O41: a sequence of the value I has a length with `I < 2^length`, and the expansion is the shortest such. -/
theorem integerExpansion : Obligations.IntegerExpansion := by
  refine ⟨natToBin_zero, fun I hI => ⟨binToNat_natToBin I, natToBin_head I hI.ne', fun S hS => ?_⟩⟩
  obtain ⟨hlow, -, hpos⟩ := bitCount_bounds I hI.ne'
  have hshort : bitCount I - 1 < S.length :=
    (Nat.pow_lt_pow_iff_right (by decide)).mp (hlow.trans_lt (hS ▸ binToNat_lt S))
  change bitCount I ≤ S.length
  omega

/-! ## The fraction part -/

/-- While digits are produced, the fraction has digits left. -/
theorem fracBitsLoop_not_dvd (D left : Nat) {F : Nat} (hF : F < 2 ^ D) {k : Nat}
    (hk : k < (fracBitsLoop D left F).length) : ¬ 2 ^ D ∣ F * 2 ^ k := by
  induction left generalizing F k with
  | zero => simp [fracBitsLoop] at hk
  | succ left ih =>
    rw [fracBitsLoop] at hk
    split at hk
    next => simp at hk
    next hne =>
      cases k with
      | zero =>
        rw [pow_zero, Nat.mul_one]
        exact Nat.not_dvd_of_pos_of_lt (Nat.pos_of_ne_zero hne) hF
      | succ k =>
        have hrest := ih (Nat.mod_lt (2 * F) (Nat.two_pow_pos D)) (by simpa using hk)
        rwa [Nat.dvd_iff_mod_eq_zero, Nat.mod_mul_mod, ← Nat.dvd_iff_mod_eq_zero, Nat.mul_comm 2, Nat.mul_assoc,
          ← pow_succ'] at hrest

/-- A fraction of k digits has at most k fraction bits. -/
theorem length_fracBits_le_of_dvd (p : Params) (f : Fmt) {F k : Nat} (hF : F < 2 ^ f.fracUnits)
    (hk : 2 ^ f.fracUnits ∣ F * 2 ^ k) : (fracBits p f F).length ≤ k :=
  not_lt.mp fun hlt => fracBitsLoop_not_dvd _ _ hF hlt hk

/-- Settles O42: the digits with what remains of the fraction make the fraction, and the loop runs while something
remains and the bound allows. -/
theorem fractionExpansion : Obligations.FractionExpansion := by
  intro p f F hF
  obtain ⟨hlen, R, hsum, hR, hstop⟩ := fracBitsLoop_spec f.fracUnits (f.W + f.fracMargin p + 1) F hF
  change (fracBits p f F).length ≤ _ at hlen
  change F * 2 ^ (fracBits p f F).length = binToNat (fracBits p f F) * _ + R at hsum
  refine ⟨hlen, ?_, fun hshort => ?_, fun k hk => fracBitsLoop_not_dvd _ _ hF hk⟩
  · rw [hsum, Nat.mul_comm _ (2 ^ _), Nat.mul_add_div (Nat.two_pow_pos _), Nat.div_eq_of_lt hR, Nat.add_zero]
  · rw [hsum, hstop hshort, Nat.add_zero]
    exact Nat.dvd_mul_left _ _

/-! ## The buffer of a finite input -/

/-- A value of at least 1 with unbiased exponent `e` has at most `W - e` fraction digits. -/
theorem dvd_splitFrac_mul (f : Fmt) (x : BitVec f.N) (hE : f.bias ≤ f.expOf x) :
    2 ^ f.fracUnits ∣ splitFrac f x * 2 ^ (f.W - (f.expOf x - f.bias)) := by
  have hbias := f.bias_bounds.1
  have hunits : f.fracUnits ≤ f.expOf x - 1 + (f.W - (f.expOf x - f.bias)) := by simp only [Fmt.fracUnits]; omega
  rw [Nat.dvd_iff_mod_eq_zero, splitFrac, Nat.mod_mul_mod, ← Nat.dvd_iff_mod_eq_zero,
    magnitudeUnits_of_normal f x (by omega), Nat.mul_assoc, ← pow_add]
  exact (pow_dvd_pow 2 hunits).mul_left _

/-- 45_encoders.md R226: the integer part of a pattern's magnitude has an exponent field, so normalization does not
fail. -/
theorem normalize_split (p : Params) (f : Fmt) (x : BitVec f.N) :
    ∃ Ef, normalize p f (splitInt f x) (splitFrac f x) =
        .ok (Ef, (intBits (splitInt f x)).drop 1 ++ fracBits p f (splitFrac f x)) ∧ Ef.length = f.K := by
  have hmax := f.emax_eq
  have hE := f.expOf_lt x
  obtain ⟨hbias, hlt, -⟩ := f.bias_bounds
  have hrange : ¬ 2 ^ (f.emaxField - f.bias + 1) ≤ splitInt f x := by
    rw [splitInt, Nat.le_div_iff_mul_le (Nat.two_pow_pos _), ← pow_add, not_le]
    refine (magnitudeUnits_lt f x).trans_le (Nat.pow_le_pow_right Nat.two_pos ?_)
    simp only [Fmt.fracUnits]
    omega
  exact ⟨_, by rw [normalize_eq, if_neg hrange], length_fixedBin _ _⟩

/-- R164 for a value of at least 1: the lengths of the buffer's two parts. -/
theorem length_buffer_of_one_le (p : Params) (f : Fmt) (x : BitVec f.N) (hI : 1 ≤ splitInt f x) :
    f.bias ≤ f.expOf x ∧ bitCount (splitInt f x) = f.expOf x - f.bias + 1 ∧
      ((intBits (splitInt f x)).drop 1).length = f.expOf x - f.bias ∧
      (fracBits p f (splitFrac f x)).length ≤ f.W - (f.expOf x - f.bias) := by
  obtain ⟨hE, hne, hlog⟩ := splitInt_log2 f x ((Nat.div_pos_iff.mp hI).2)
  obtain ⟨-, hF⟩ := split_spec f x
  obtain ⟨hlenI, -⟩ := drop_intBits (splitInt f x) hne
  exact ⟨hE, by rw [bitCount_eq_log2 _ hne, hlog], by rw [hlenI, hlog],
    length_fracBits_le_of_dvd p f hF (dvd_splitFrac_mul f x hE)⟩

/-- Settles O43: with an integer part the two parts of the buffer share max(e, W) places; without one the bound of the
fraction loop is the buffer's. -/
theorem bufferBounds : Obligations.BufferBounds := by
  intro p f x hfin
  obtain ⟨Ef, hnorm, hlenE⟩ := normalize_split p f x
  have hlenF := length_fracBits_le p f (split_spec f x).2
  refine ⟨Ef, _, hnorm, hlenE, ?_⟩
  rw [List.length_append, Fmt.mbMax]
  by_cases hI : 1 ≤ splitInt f x
  · obtain ⟨hE, hcount, hlenI, hlenF'⟩ := length_buffer_of_one_le p f x hI
    have hmax := f.emax_eq
    have hlt := f.expOf_lt x
    exact ⟨by omega, fun _ => ⟨hE, hcount, hlenF', by omega⟩, fun hzero => by omega⟩
  · have hzero : splitInt f x = 0 := by omega
    have hempty : (intBits (splitInt f x)).drop 1 = [] := by rw [hzero, integerExpansion.1, List.drop_nil]
    rw [hempty, List.nil_append, List.length_nil, Nat.zero_add]
    exact ⟨hlenF.trans (le_max_right _ _), fun hone => absurd hone hI, fun _ => ⟨rfl, hlenF⟩⟩

end Sys2Proof.Machine
end

section
/-! The rounding unit's two operations on the port, and the rounding of a mantissa buffer
(43_round_to_even_unit.md R180 to R191). -/

namespace Sys2Proof.Machine

/-- Settles O32: the row of the opcode table, and the unit's response on 23-bit candidates. -/
theorem rnd32Responds : Obligations.Rnd32Responds := by
  refine ⟨fun a b => ?_, fun bits g r st s => ?_⟩
  · rw [decode, opOf_packCmd, aOf_packCmd, bOf_packCmd]
    rfl
  · rw [exec, execRnd32, place_roundBitsUnit]
    rfl

/-- Settles O33: the row of the opcode table, and the unit's response on 52-bit candidates. -/
theorem rnd64Responds : Obligations.Rnd64Responds := by
  refine ⟨fun a b => ?_, fun bits g r st s => ?_⟩
  · rw [decode, opOf_packCmd, aOf_packCmd, bOf_packCmd]
    rfl
  · rw [exec, execRnd64, place_roundBitsUnit]
    rfl

/-- Settles O44: the candidate of the statement is `roundedFraction` of the buffer's number, to which `roundBuffer_eq`
rounds. -/
theorem bufferRoundsToNearestEven : Obligations.BufferRoundsToNearestEven := roundBuffer_eq

end Sys2Proof.Machine
end

section
/-! The decoders' two operations on the port, their domain, and the fields and value of a decoded pattern
(44_decoders.md R202 to R205). -/

namespace Sys2Proof.Machine

/-! ## The two operations -/

/-- Settles O22: the row of the opcode table, and the unit's response on binary32 patterns. -/
theorem dec32Responds : Obligations.Dec32Responds := by
  refine ⟨fun a b => by simp [decode], fun x s => ?_⟩
  rw [exec, execDec32, place_decodeUnit]
  rfl

/-- Settles O23: the row of the opcode table, and the unit's response on binary64 patterns. -/
theorem dec64Responds : Obligations.Dec64Responds := by
  refine ⟨fun a b => by simp [decode], fun x s => ?_⟩
  rw [exec, execDec64, place_decodeUnit]
  rfl

/-! ## The domain -/

/-- A pattern that decodes passes the validator, and its exponent is 0 or in the normalizer's range. -/
theorem domain_of_decodeFloat_eq_ok {f : Fmt} {x y : BitVec f.N} (hy : decodeFloat f x = .ok y) :
    f.manOf x ≠ 0 ∧ (f.expOf x = 0 ∨ (f.bias ≤ f.expOf x ∧ f.expOf x ≤ f.bias + f.W)) := by
  by_cases hinv : f.expOf x = f.emaxField ∨ f.manOf x = 0
  · rw [decodeFloat_of_invalid f x hinv] at hy
    cases hy
  obtain ⟨hmax, hM⟩ := not_or.mp hinv
  refine ⟨hM, by_contra fun hE => ?_⟩
  rw [decodeFloat_of_out_of_range f x hmax hM hE] at hy
  cases hy

/-- Settles O45: outside the domain the validator answers first, then the normalizer's range of exponents. -/
theorem decoderDomain : Obligations.DecoderDomain := by
  intro f x
  refine ⟨⟨fun ⟨y, hy⟩ => domain_of_decodeFloat_eq_ok hy, fun ⟨hM, hE⟩ => ?_⟩, fun hmax => ?_, fun hmax hM => ?_,
    fun hpos hlow hM => ?_, fun hhigh hmax hM => ?_⟩
  · obtain ⟨y, hy, -⟩ := decodeFloat_ok f x hM hE
    exact ⟨y, hy⟩
  · rw [decodeFloat_of_invalid f x (.inl hmax), if_pos hmax]
  · rw [decodeFloat_of_invalid f x (.inr hM), if_neg hmax]
  · obtain ⟨-, hbias, -⟩ := f.bias_bounds
    exact decodeFloat_of_out_of_range f x (by omega) hM (by omega)
  · exact decodeFloat_of_out_of_range f x hmax.ne hM (by omega)

/-! ## The decoded pattern -/

/-- The fields of a pattern number, its sign bit among them. -/
theorem fields_of_signed_toNat_eq (f : Fmt) {y : BitVec f.N} {sign : Bool} {E M : Nat} (hE : E < 2 ^ f.K)
    (hM : M < 2 ^ f.W) (hy : y.toNat = sign.toNat * 2 ^ (f.N - 1) + (E * 2 ^ f.W + M)) :
    f.signOf y = sign ∧ f.expOf y = E ∧ f.manOf y = M := by
  have hlow := magnitude_pattern_lt f hE hM
  have hfields : f.manOf y + 2 ^ f.W * f.expOf y = E * 2 ^ f.W + M := by
    rw [Nat.add_comm, Nat.mul_comm, ← toNat_mod_eq, hy, Nat.mul_comm, Nat.mul_add_mod, Nat.mod_eq_of_lt hlow]
  obtain ⟨hdiv, hmod⟩ := (Nat.div_mod_unique (Nat.two_pow_pos f.W)).mpr ⟨hfields, f.manOf_lt y⟩
  refine ⟨?_, ?_, ?_⟩
  · rw [Fmt.signOf, BitVec.getLsbD, hy, testBit_sign sign hlow]
  · rw [← hdiv, Nat.mul_comm, Nat.mul_add_div (Nat.two_pow_pos _), Nat.div_eq_of_lt hM, Nat.add_zero]
  · rw [← hmod, Nat.mul_comm, Nat.mul_add_mod, Nat.mod_eq_of_lt hM]

/-- R202: sign and mantissa are kept, the exponent field is replaced only where it is 0. -/
theorem fields_of_decodeFloat_eq_ok {f : Fmt} {x y : BitVec f.N} (hy : decodeFloat f x = .ok y) :
    f.signOf y = f.signOf x ∧ f.expOf y = (if f.expOf x = 0 then f.bias else f.expOf x) ∧ f.manOf y = f.manOf x := by
  obtain ⟨hM, hE⟩ := domain_of_decodeFloat_eq_ok hy
  obtain ⟨y', hy', hval⟩ := decodeFloat_ok f x hM hE
  obtain rfl : y' = y := Except.ok.inj (hy'.symm.trans hy)
  have hfield : (if f.expOf x = 0 then f.bias else f.expOf x) < 2 ^ f.K := by
    have hbias := f.bias_add_W_lt
    have hmax := f.emax_eq
    have hlt := f.expOf_lt x
    split <;> omega
  exact fields_of_signed_toNat_eq f hfield (f.manOf_lt x) hval

/-- 00_scope.md R20 for a normal pattern. -/
theorem nativeValue_of_normal (f : Fmt) {y : BitVec f.N} (hpos : 0 < f.expOf y) (hmax : f.expOf y ≠ f.emaxField) :
    nativeValue f y =
      some (signValue (f.signOf y) * (1 + (f.manOf y : ℚ) / 2 ^ f.W) * 2 ^ ((f.expOf y : ℤ) - f.bias)) := by
  simp only [nativeValue, if_neg hmax, if_pos hpos]

/-- Settles O46: the decoded pattern is normal, and its exponent is the one that `ExpDecode` gives the input's field. -/
theorem decodedPatternAndValue : Obligations.DecodedPatternAndValue := by
  intro f x y hy
  obtain ⟨-, hdom⟩ := domain_of_decodeFloat_eq_ok hy
  obtain ⟨hsign, hE, hM⟩ := fields_of_decodeFloat_eq_ok hy
  refine ⟨hsign, hM, hE, ?_⟩
  obtain ⟨hbias, -⟩ := f.bias_bounds
  have hW := f.bias_add_W_lt
  have hnormal : 0 < f.expOf y ∧ f.expOf y ≠ f.emaxField := by rw [hE]; split <;> omega
  have hexp : expDecode f (seq (x.extractLsb' f.W f.K)) = (f.expOf y : ℤ) - f.bias := by
    have hfield : (x.extractLsb' f.W f.K).toNat = f.expOf x := rfl
    simp only [expDecode, binToNat_seq, hfield, hE]
    split
    · rw [sub_self]
    · rfl
  rw [nativeValue_of_normal f hnormal.1 hnormal.2, hsign, hM, hexp]

end Sys2Proof.Machine
end

section
/-! The round trip of encoder and decoder, and the exponent fields on which it holds (44_decoders.md R207). -/

namespace Sys2Proof.Machine

/-! ## The exponent field says which powers of 2 a magnitude reaches -/

theorem two_pow_le_magnitudeUnits_iff (f : Fmt) (x : BitVec f.N) (k : Nat) :
    2 ^ (k + f.fracUnits) ≤ magnitudeUnits f x ↔ f.bias + k ≤ f.expOf x := by
  obtain ⟨hbias, -⟩ := f.bias_bounds
  have hunits : f.fracUnits = f.bias - 1 + f.W := rfl
  constructor
  · intro hle
    have hlt := (Nat.pow_lt_pow_iff_right Nat.one_lt_two).mp (hle.trans_lt (magnitudeUnits_lt f x))
    omega
  · intro hE
    rw [magnitudeUnits_of_normal f x (by omega)]
    calc 2 ^ (k + f.fracUnits) ≤ 2 ^ (f.W + (f.expOf x - 1)) := Nat.pow_le_pow_right Nat.two_pos (by omega)
      _ = 2 ^ f.W * 2 ^ (f.expOf x - 1) := pow_add _ _ _
      _ ≤ (2 ^ f.W + f.manOf x) * 2 ^ (f.expOf x - 1) := Nat.mul_le_mul_right _ (Nat.le_add_right _ _)

/-- The model's magnitude is that of the native value, in units of `2^-fracUnits`. -/
theorem abs_eq_magnitudeUnits_div {f : Fmt} {x : BitVec f.N} {v : ℚ} (hv : nativeValue f x = some v) :
    |v| = (magnitudeUnits f x : ℚ) / 2 ^ f.fracUnits := by
  obtain ⟨-, rfl⟩ := nativeValue_some hv
  rw [abs_signValue_mul, abs_of_nonneg (patternValue_nonneg f _), patternValue, ← magnitudeUnits_eq]

theorem two_pow_le_abs_iff {f : Fmt} {x : BitVec f.N} {v : ℚ} (hv : nativeValue f x = some v) (k : Nat) :
    2 ^ k ≤ |v| ↔ f.bias + k ≤ f.expOf x := by
  rw [abs_eq_magnitudeUnits_div hv, le_div_iff₀ (by positivity), ← pow_add, ← two_pow_le_magnitudeUnits_iff]
  norm_cast

/-- R207's range of values is the range of exponent fields from which the decoder slices a mantissa. -/
theorem abs_mem_range_iff {f : Fmt} {x : BitVec f.N} {v : ℚ} (hv : nativeValue f x = some v) :
    1 ≤ |v| ∧ |v| < 2 ^ (f.W + 1) ↔ f.bias ≤ f.expOf x ∧ f.expOf x ≤ f.bias + f.W := by
  have hone : 1 ≤ |v| ↔ f.bias ≤ f.expOf x := by simpa using two_pow_le_abs_iff hv 0
  rw [hone, ← not_le, two_pow_le_abs_iff hv, not_le, ← Nat.add_assoc, Nat.lt_succ_iff]

/-! ## The round trip -/

/-- 45_encoders.md R232 where the integer part has at most W + 1 bits. -/
theorem encodeFloat_eq_self {p : Params} {f : Fmt} {x : BitVec f.N} (hwidth : f.W + 1 ≤ f.intMagBits p)
    (hlo : f.bias ≤ f.expOf x) (hhi : f.expOf x ≤ f.bias + f.W) : encodeFloat p f x = .ok x := by
  have hmax := f.bias_add_W_lt
  have hfit : splitInt f x < 2 ^ f.intMagBits p := by
    rw [splitInt, Nat.div_lt_iff_lt_mul (Nat.two_pow_pos _), ← pow_add, ← not_le, two_pow_le_magnitudeUnits_iff]
    omega
  have hone : 2 ^ f.fracUnits ≤ magnitudeUnits f x := by
    simpa using (two_pow_le_magnitudeUnits_iff f x 0).mpr hlo
  exact encodeFloat_of_one_le p f x (by omega) hfit hone

/-- R202 for a field that is not 0: nothing is replaced. -/
theorem decodeFloat_eq_self {f : Fmt} {x : BitVec f.N} (hM : f.manOf x ≠ 0) (hlo : f.bias ≤ f.expOf x)
    (hhi : f.expOf x ≤ f.bias + f.W) : decodeFloat f x = .ok x := by
  obtain ⟨y, hy, hval⟩ := decodeFloat_ok f x hM (.inr ⟨hlo, hhi⟩)
  obtain ⟨hbias, -⟩ := f.bias_bounds
  rw [if_neg (by omega), ← Nat.add_assoc, ← f.toNat_eq] at hval
  rw [hy, BitVec.eq_of_toNat_eq hval]

/-- Every decoded pattern has a mantissa field other than 0 and a field in the decoder's range, BIAS included. -/
theorem range_of_decodeFloat_eq_ok {f : Fmt} {x y : BitVec f.N} (hy : decodeFloat f x = .ok y) :
    f.manOf y ≠ 0 ∧ f.bias ≤ f.expOf y ∧ f.expOf y ≤ f.bias + f.W := by
  obtain ⟨hM, hdom⟩ := domain_of_decodeFloat_eq_ok hy
  obtain ⟨-, hE, hman⟩ := fields_of_decodeFloat_eq_ok hy
  refine ⟨by rwa [hman], ?_⟩
  rw [hE]
  split <;> omega

/-- Settles O51: in the range both directions keep the pattern, and what the decoder gives back lies in the range,
whatever the encoder gave it. -/
theorem codecRoundTrip : Obligations.CodecRoundTrip := by
  intro p f x v hwidth hv
  have hrange := abs_mem_range_iff hv
  have hself (hlo : 1 ≤ |v|) (hhi : |v| < 2 ^ (f.W + 1)) (hM : f.manOf x ≠ 0) :
      encodeFloat p f x = .ok x ∧ decodeFloat f x = .ok x := by
    obtain ⟨hElo, hEhi⟩ := hrange.mp ⟨hlo, hhi⟩
    exact ⟨encodeFloat_eq_self hwidth hElo hEhi, decodeFloat_eq_self hM hElo hEhi⟩
  refine ⟨hself, fun hback => ?_, fun ⟨hlo, hhi, hM⟩ => ?_⟩
  · cases henc : encodeFloat p f x with
    | error err => rw [henc] at hback; cases hback
    | ok y =>
      rw [henc] at hback
      obtain ⟨hM, hE⟩ := range_of_decodeFloat_eq_ok hback
      obtain ⟨hlo, hhi⟩ := hrange.mpr hE
      exact ⟨hlo, hhi, hM⟩
  · obtain ⟨henc, hdec⟩ := hself hlo hhi hM
    rw [henc]
    exact hdec

end Sys2Proof.Machine
end

section
/-! The encoders' two operations on the port, and the encoder on the exact value of a finite pattern: the split, the
range of the integer part, and the results on both sides of 1 (45_encoders.md R223, R225, R232 to R236). -/

namespace Sys2Proof.Machine

/-! ## The two operations -/

/-- Settles O24: the row of the opcode table, and the unit's response on binary32 patterns. -/
theorem enc32Responds : Obligations.Enc32Responds := by
  refine ⟨fun a b => by simp [decode], fun x s => ?_⟩
  rw [exec, execEnc32, place_encodeUnit]
  rfl

/-- Settles O25: the row of the opcode table, and the unit's response on binary64 patterns. -/
theorem enc64Responds : Obligations.Enc64Responds := by
  refine ⟨fun a b => by simp [decode], fun x s => ?_⟩
  rw [exec, execEnc64, place_encodeUnit]
  rfl

/-! ## The split -/

/-- A pattern that has a native value is finite. -/
theorem expOf_ne_emaxField_of_nativeValue {f : Fmt} {x : BitVec f.N} {v : ℚ} (hv : nativeValue f x = some v) :
    f.expOf x ≠ f.emaxField :=
  (toNat_mod_lt_iff f x).mp (nativeValue_some hv).1

/-- The first `n` fraction digits of a magnitude, with its integer part before them, by the model's division. -/
theorem floor_abs_mul_two_pow {f : Fmt} {x : BitVec f.N} {v : ℚ} (hv : nativeValue f x = some v) (n : Nat) :
    ⌊|v| * 2 ^ n⌋₊ = magnitudeUnits f x * 2 ^ n / 2 ^ f.fracUnits := by
  rw [abs_eq_magnitudeUnits_div hv, div_mul_eq_mul_div, ← Nat.floor_div_eq_div (K := ℚ)]
  norm_cast

/-- Settles O47: the two parts are quotient and remainder of the magnitude in units of `2^-fracUnits`. -/
theorem splitIsExact : Obligations.SplitIsExact := by
  intro f x v hv
  obtain ⟨hsplit, hfrac⟩ := split_spec f x
  have hfloor : ⌊|v|⌋₊ = splitInt f x := by simpa [splitInt] using floor_abs_mul_two_pow hv 0
  have habs : |v| = splitInt f x + (splitFrac f x : ℚ) / 2 ^ f.fracUnits := by
    rw [abs_eq_magnitudeUnits_div hv, hsplit]
    push_cast
    rw [add_div, mul_div_cancel_right₀ _ (by positivity)]
  refine ⟨?_, by rw [habs, add_sub_cancel_left], by positivity, ?_⟩
  · rw [← hfloor, Int.natCast_floor_eq_floor (abs_nonneg v)]
  · rw [div_lt_one (by positivity)]
    exact_mod_cast hfrac

/-! ## The range of the integer part -/

theorem two_pow_le_splitInt_iff (f : Fmt) (x : BitVec f.N) (k : Nat) :
    2 ^ k ≤ splitInt f x ↔ f.bias + k ≤ f.expOf x := by
  rw [splitInt, Nat.le_div_iff_mul_le (Nat.two_pow_pos _), ← pow_add, two_pow_le_magnitudeUnits_iff]

/-- R225 for a width that is not below the default: every finite pattern's integer part fits. -/
theorem splitInt_lt_of_default_le {p : Params} {f : Fmt} {x : BitVec f.N} (hmax : f.expOf x ≠ f.emaxField)
    (hwidth : f.intMagBits Params.default ≤ f.intMagBits p) : splitInt f x < 2 ^ f.intMagBits p := by
  have hdefault : f.bias + f.intMagBits Params.default = f.emaxField := by cases f <;> rfl
  have hlt := f.expOf_lt x
  have hemax := f.emax_eq
  rw [← not_le, two_pow_le_splitInt_iff]
  omega

/-- R221: SplitError comes from the check of the integer part, and from no later step. -/
theorem encodeFloat_eq_splitError_iff (p : Params) {f : Fmt} {x : BitVec f.N} (hmax : f.expOf x ≠ f.emaxField) :
    encodeFloat p f x = .error .splitError ↔ 2 ^ f.intMagBits p ≤ splitInt f x := by
  refine ⟨fun herr => ?_, fun hbig => by rw [encodeFloat, if_neg hmax, if_pos hbig]⟩
  by_contra hfit
  by_cases hone : 2 ^ f.fracUnits ≤ magnitudeUnits f x
  · rw [encodeFloat_of_one_le p f x hmax (not_le.mp hfit) hone] at herr
    cases herr
  · obtain ⟨-, henc⟩ | ⟨-, y, henc, -⟩ := encodeFloat_of_lt_one p f x hmax (not_le.mp hone) rfl
    all_goals
      rw [henc] at herr
      cases herr

/-- Settles O48: both clauses are about the check of the integer part, which is `⌊|v|⌋`. -/
theorem integerRange : Obligations.IntegerRange := by
  intro p f x v hv
  have hmax := expOf_ne_emaxField_of_nativeValue hv
  obtain ⟨hfloor, -⟩ := splitIsExact f x v hv
  rw [← hfloor, ne_eq, encodeFloat_eq_splitError_iff p hmax, not_le]
  exact ⟨fun hbig => by exact_mod_cast hbig, splitInt_lt_of_default_le hmax⟩

/-! ## Values of at least 1, and values below 1 -/

theorem two_pow_fracUnits_le_magnitudeUnits_iff {f : Fmt} {x : BitVec f.N} {v : ℚ} (hv : nativeValue f x = some v) :
    2 ^ f.fracUnits ≤ magnitudeUnits f x ↔ 1 ≤ |v| := by
  rw [abs_eq_magnitudeUnits_div hv, one_le_div (by positivity)]
  norm_cast

/-- Settles O49: under either hypothesis the integer part fits its type. -/
theorem valuesFromOneEncodeToThemselves : Obligations.ValuesFromOneEncodeToThemselves := by
  intro p f x v hv hone
  have hmax := expOf_ne_emaxField_of_nativeValue hv
  have hself (hfit : splitInt f x < 2 ^ f.intMagBits p) : encodeFloat p f x = .ok x :=
    encodeFloat_of_one_le p f x hmax hfit ((two_pow_fracUnits_le_magnitudeUnits_iff hv).mpr hone)
  refine ⟨fun hlt => hself ?_, fun hwidth => hself (splitInt_lt_of_default_le hmax hwidth)⟩
  rwa [← not_le, two_pow_le_splitInt_iff, ← two_pow_le_abs_iff hv, not_le]

/-- Settles O50: the digits of the statement are those the fraction loop produces, and a rounded field that needs no
further bit stands alone below the sign. -/
theorem valuesBelowOneEncodeTheirFraction : Obligations.ValuesBelowOneEncodeTheirFraction := by
  intro p f x v hv hlt
  have hmax := expOf_ne_emaxField_of_nativeValue hv
  have hunits : magnitudeUnits f x < 2 ^ f.fracUnits := by
    rwa [← not_le, two_pow_fracUnits_le_magnitudeUnits_iff hv, not_le]
  rw [floor_abs_mul_two_pow hv]
  intro m
  have hle : m ≤ 2 ^ f.W := by
    refine roundedFraction_le (Nat.div_lt_of_lt_mul ?_)
    exact Nat.mul_lt_mul_of_pos_right hunits (Nat.two_pow_pos _)
  obtain ⟨hover, henc⟩ | ⟨hfits, y, henc, hval⟩ := encodeFloat_of_lt_one (m := m) p f x hmax hunits rfl
  · exact ⟨fun _ => henc, fun hfits => absurd hover hfits⟩
  · rw [← Nat.zero_add m, ← Nat.zero_mul (2 ^ f.W)] at hval
    have hfields := fields_of_signed_toNat_eq f (Nat.two_pow_pos f.K) (lt_of_le_of_ne hle hfits) hval
    exact ⟨fun hover => absurd hover hfits, fun _ => ⟨y, henc, hfields⟩⟩

end Sys2Proof.Machine
end

section
/-! Status codes (60_exceptions.md R250 to R257): every run completes, an operation writes the codes of its row and each
of them for some operands, an error has no result, and every step keeps a response the block can give. -/

namespace Sys2Proof.Machine

/-! ## Completion -/

theorem step_completes (s : State) : Completes (step s) := by
  obtain ⟨-, hedge⟩ | ⟨-, -, hedge⟩ | ⟨-, -, hedge⟩ := edge_cases s.signals s.advance
  · exact ⟨_, hedge⟩
  · obtain ⟨t, hexec, -⟩ := instructionsWriteOnlyTheResponse (decode s.signals.cmd) s.advance
    exact ⟨t, hedge.trans hexec⟩
  · exact ⟨_, hedge⟩

/-- Settles O8, by induction on the number of steps. -/
theorem everyRunCompletes : Obligations.EveryRunCompletes := by
  intro k
  induction k with
  | zero => exact fun s => ⟨s, rfl⟩
  | succ k ih =>
    intro s
    obtain ⟨t, hstep⟩ := step_completes s
    rw [stepN, hstep]
    exact ih t

/-- Settles O10: both states latch the one response that the parameters allow, and latching it again changes nothing. -/
theorem responseDependsOnTheRequestAlone : Obligations.ResponseDependsOnTheRequestAlone := by
  intro i s s' hcfg
  obtain ⟨rsp, hexec⟩ := exec_latches i s.cfg
  refine ⟨s.latch rsp, s'.latch rsp, hexec s rfl, hexec s' hcfg.symm, ?_, rfl, rfl, rfl⟩
  rw [hexec (s.latch rsp) rfl, State.latch_latch]

/-! ## Errors -/

theorem respond_result_of_error {n : Nat} (r : Except Err (BitVec n)) : (respond r).1 ≠ 0 → (respond r).2 = 0 := by
  cases r with
  | ok v => exact fun herr => absurd rfl herr
  | error e => exact fun _ => rfl

/-- A unit's placed signals are a response, so that an error among them comes with result 0. -/
theorem latch_unitOut_result_of_error (s : State) {n : Nat} (r : Except Err (BitVec n)) :
    (s.latch (place (unitOut 0 r))).rspStatus ≠ 0 → (s.latch (place (unitOut 0 r))).rspResult = 0 := by
  rw [place_unitOut]
  exact respond_result_of_error r

/-- Settles O15: every meaning latches the response of its unit's value or error. -/
theorem errorsCarryNoResult : Obligations.ErrorsCarryNoResult := by
  intro i s
  cases i with
  | dec32 x => exact ⟨_, rfl, latch_unitOut_result_of_error s (decodeFloat .b32 x)⟩
  | dec64 x => exact ⟨_, rfl, latch_unitOut_result_of_error s (decodeFloat .b64 x)⟩
  | enc32 x => exact ⟨_, rfl, latch_unitOut_result_of_error s (encodeFloat s.cfg .b32 x)⟩
  | enc64 x => exact ⟨_, rfl, latch_unitOut_result_of_error s (encodeFloat s.cfg .b64 x)⟩
  | expdec32 E => exact ⟨_, rfl, respond_result_of_error _⟩
  | expdec64 E => exact ⟨_, rfl, respond_result_of_error _⟩
  | expenc32 n => exact ⟨_, rfl, latch_unitOut_result_of_error s ((expEncode .b32 n.toNat).map (word 8))⟩
  | expenc64 n => exact ⟨_, rfl, latch_unitOut_result_of_error s ((expEncode .b64 n.toNat).map (word 11))⟩
  | mandec32 M e => exact ⟨_, rfl, latch_unitOut_result_of_error s (manDecode .b32 (seq M) (signed e))⟩
  | mandec64 M e => exact ⟨_, rfl, latch_unitOut_result_of_error s (manDecode .b64 (seq M) (signed e))⟩
  | rnd32 bits g r st =>
    exact ⟨_, rfl, latch_unitOut_result_of_error s ((roundBits (seq bits) g r st).map (word 23))⟩
  | rnd64 bits g r st =>
    exact ⟨_, rfl, latch_unitOut_result_of_error s ((roundBits (seq bits) g r st).map (word 52))⟩
  | reserved k a b => exact ⟨_, rfl, respond_result_of_error _⟩

/-! ## The codes of each unit -/

/-- The codes of an encoder's row (60_exceptions.md R252), for either format. -/
def encoderCodes (p : Params) (f : Fmt) : List Status :=
  if f.intMagBits p < f.intMagBits Params.default then [0, 2, 8, 9] else [0, 2, 8]

theorem allowedCodes_ENC32 (p : Params) : allowedCodes p .ENC32 = encoderCodes p .b32 := rfl

theorem allowedCodes_ENC64 (p : Params) : allowedCodes p .ENC64 = encoderCodes p .b64 := rfl

theorem mem_encoderCodes (p : Params) (f : Fmt) (st : Status) :
    st ∈ encoderCodes p f ↔
      st = 0 ∨ st = 2 ∨ st = 8 ∨ (st = 9 ∧ f.intMagBits p < f.intMagBits Params.default) := by
  unfold encoderCodes
  split <;> simp [*]

theorem decoderResponse_status (f : Fmt) (x : BitVec f.N) : (decoderResponse f x).1 ∈ ([0, 2, 3, 5] : List Status) := by
  simp only [decoderResponse]
  split_ifs <;> simp

/-- SplitError needs an integer part that does not fit, which a width not below the default rules out
(60_exceptions.md R251). -/
theorem encoderResponse_status (p : Params) (f : Fmt) (x : BitVec f.N) :
    (encoderResponse p f x).1 ∈ encoderCodes p f := by
  rw [encoderResponse_eq, mem_encoderCodes]
  by_cases hmax : f.expOf x = f.emaxField
  · rw [if_pos hmax]
    simp
  rw [if_neg hmax]
  by_cases hbig : splitInt f x ≥ 2 ^ f.intMagBits p
  · have hwidth : f.intMagBits p < f.intMagBits Params.default :=
      not_le.mp fun hle => absurd (splitInt_lt_of_default_le hmax hle) (not_lt.mpr hbig)
    rw [if_pos hbig]
    simp [hwidth]
  · rw [if_neg hbig]
    dsimp only
    split_ifs <;> simp

theorem latch_expEncodeUnit_status (s : State) (f : Fmt) (n : BitVec 16) :
    (s.latch (place (expEncodeUnit f n))).rspStatus ∈ ([0, 10] : List Status) := by
  rw [State.latch_rspStatus, place_expEncodeUnit]
  split <;> simp

theorem magnitudeResponse_status (f : Fmt) (M : Nat) (e : Int) :
    (magnitudeResponse f M e).1 ∈ ([0, 5] : List Status) := by
  simp only [magnitudeResponse]
  split_ifs <;> simp

theorem roundingResponse_status {w : Nat} (bits : BitVec w) (g r st : Bool) :
    (roundingResponse bits g r st).1 ∈ ([0, 8] : List Status) := by
  simp only [roundingResponse]
  split_ifs <;> simp

/-- Settles O13: each operation by its closed form. -/
theorem operationsWriteOnlyTheirCodes : Obligations.OperationsWriteOnlyTheirCodes := by
  intro i s
  cases i with
  | dec32 x => exact ⟨_, dec32Responds.2 x s, decoderResponse_status .b32 x⟩
  | dec64 x => exact ⟨_, dec64Responds.2 x s, decoderResponse_status .b64 x⟩
  | enc32 x =>
    refine ⟨_, enc32Responds.2 x s, ?_⟩
    rw [Instr.mnemonic, allowedCodes_ENC32]
    exact encoderResponse_status s.cfg .b32 x
  | enc64 x =>
    refine ⟨_, enc64Responds.2 x s, ?_⟩
    rw [Instr.mnemonic, allowedCodes_ENC64]
    exact encoderResponse_status s.cfg .b64 x
  | expdec32 E => exact ⟨_, rfl, List.mem_singleton_self 0⟩
  | expdec64 E => exact ⟨_, rfl, List.mem_singleton_self 0⟩
  | expenc32 n => exact ⟨_, rfl, latch_expEncodeUnit_status s .b32 n⟩
  | expenc64 n => exact ⟨_, rfl, latch_expEncodeUnit_status s .b64 n⟩
  | mandec32 M e => exact ⟨_, mandec32Responds.2 M e s, magnitudeResponse_status .b32 _ _⟩
  | mandec64 M e => exact ⟨_, mandec64Responds.2 M e s, magnitudeResponse_status .b64 _ _⟩
  | rnd32 bits g r st => exact ⟨_, rnd32Responds.2 bits g r st s, roundingResponse_status bits g r st⟩
  | rnd64 bits g r st => exact ⟨_, rnd64Responds.2 bits g r st s, roundingResponse_status bits g r st⟩
  | reserved k a b => exact ⟨_, rfl, List.mem_singleton_self 11⟩

/-! ## The invariant -/

/-- Whatever the registers held, an instruction leaves a response the block can give. -/
theorem exec_coherent {i : Instr} {s t : State} (hexec : exec i s = .next t) : t.Coherent ∧ t.cfg = s.cfg := by
  obtain ⟨t₁, hframe, -, hcfg, -⟩ := instructionsWriteOnlyTheResponse i s
  obtain ⟨t₂, hcodes, hstatus⟩ := operationsWriteOnlyTheirCodes i s
  obtain ⟨t₃, herrors, hresult⟩ := errorsCarryNoResult i s
  obtain rfl : t = t₁ := Host.Outcome.next.inj (hexec.symm.trans hframe)
  obtain rfl : t = t₂ := Host.Outcome.next.inj (hexec.symm.trans hcodes)
  obtain rfl : t = t₃ := Host.Outcome.next.inj (hexec.symm.trans herrors)
  exact ⟨⟨⟨i.mnemonic, hcfg ▸ hstatus⟩, hresult⟩, hcfg⟩

/-- Status 0 is among the codes of every operation but the reserved one, and it is no error. -/
theorem coherent_of_status_zero {s : State} (hstatus : s.rspStatus = 0) : s.Coherent :=
  ⟨⟨.EXPDEC32, List.mem_singleton.mpr hstatus⟩, fun herr => absurd hstatus herr⟩

/-- Settles O12: a reset edge clears the status, a request latches a response the block can give, and an idle edge keeps
the response that stands. -/
theorem stepKeepsCoherence : Obligations.StepKeepsCoherence := by
  intro s t hcoh hstep
  obtain ⟨-, rfl⟩ | ⟨-, -, hexec⟩ | ⟨-, -, rfl⟩ := step_cases hstep
  · exact ⟨coherent_of_status_zero rfl, rfl⟩
  · obtain ⟨hcoh, hcfg⟩ := exec_coherent hexec
    exact ⟨hcoh, hcfg⟩
  · exact ⟨hcoh, rfl⟩

/-! ## Operands for each code -/

theorem Fmt.one_lt_bias (f : Fmt) : 1 < f.bias := by cases f <;> decide

theorem exists_pattern (f : Fmt) {E M : Nat} (hE : E ≤ f.emaxField) (hM : M < 2 ^ f.W) :
    ∃ x : BitVec f.N, f.expOf x = E ∧ f.manOf x = M := by
  have hE : E < 2 ^ f.K := hE.trans_lt (f.emax_eq ▸ Nat.sub_lt (Nat.two_pow_pos _) Nat.one_pos)
  have hlt : E * 2 ^ f.W + M < 2 ^ f.N :=
    (magnitude_pattern_lt f hE hM).trans_le (Nat.pow_le_pow_right (by decide) (Nat.sub_le _ _))
  obtain ⟨-, hexp, hman⟩ := fields_of_toNat_eq f hE hM
    ((BitVec.toNat_ofNat _ _).trans (Nat.mod_eq_of_lt hlt))
  exact ⟨_, hexp, hman⟩

/-- In the order of the codes: the least subnormal pattern, infinity, the pattern 0, and field 1 with a mantissa. -/
theorem decoderResponse_writes (f : Fmt) :
    ∀ st ∈ ([0, 2, 3, 5] : List Status), ∃ x : BitVec f.N, (decoderResponse f x).1 = st := by
  obtain ⟨-, hlt, -⟩ := f.bias_bounds
  have hbias := f.one_lt_bias
  have hW : 1 < 2 ^ f.W := by cases f <;> decide
  intro st hst
  simp only [List.mem_cons, List.not_mem_nil, or_false] at hst
  simp only [decoderResponse]
  obtain rfl | rfl | rfl | rfl := hst
  · obtain ⟨x, hE, hM⟩ := exists_pattern f (Nat.zero_le _) hW
    exact ⟨x, by rw [hE, hM, if_neg (by omega), if_neg (by omega), if_pos rfl]⟩
  · obtain ⟨x, hE, -⟩ := exists_pattern f le_rfl (Nat.two_pow_pos f.W)
    exact ⟨x, by rw [if_pos hE]⟩
  · obtain ⟨x, hE, hM⟩ := exists_pattern f (Nat.zero_le _) (Nat.two_pow_pos f.W)
    exact ⟨x, by rw [hE, if_neg (by omega), if_pos hM]⟩
  · obtain ⟨x, hE, hM⟩ := exists_pattern f (E := 1) (by omega) hW
    exact ⟨x, by rw [hE, hM, if_neg (by omega), if_neg (by omega), if_neg (by omega), if_neg (by omega)]⟩

/-- W + 1 digits of 1, with zeros behind them, round up to a carry out of the first W. -/
theorem roundedFraction_all_ones {w : Nat} (hw : w ≠ 0) (c : Nat) :
    roundedFraction c ((2 * 2 ^ w - 1) * 2 ^ c) = 2 ^ w := by
  have hshift := roundedFraction_shift 0 c (2 * 2 ^ w - 1)
  rw [Nat.zero_add] at hshift
  have hpos := Nat.two_pow_pos w
  have heven : 2 ∣ 2 ^ w := dvd_pow_self 2 hw
  rw [hshift]
  simp only [roundedFraction]
  rw [if_pos (.inr ⟨by omega, by omega⟩)]
  omega

/-- The first digits of the largest value below 1: W + 1 of them are 1, the others 0. -/
theorem fraction_digits_below_one {f : Fmt} {x : BitVec f.N} (hE : f.expOf x = f.bias - 1)
    (hM : f.manOf x = 2 ^ f.W - 1) (c : Nat) :
    magnitudeUnits f x * 2 ^ (f.W + c + 1) / 2 ^ f.fracUnits = (2 * 2 ^ f.W - 1) * 2 ^ c := by
  have hbias := f.one_lt_bias
  have hunits : f.fracUnits = f.bias - 2 + (f.W + 1) := by simp only [Fmt.fracUnits]; omega
  rw [magnitudeUnits_of_normal f x (by omega), hE, hM, hunits, Nat.sub_sub, ← Nat.add_sub_assoc (Nat.two_pow_pos _),
    ← two_mul, Nat.add_right_comm f.W, pow_add 2 (f.W + 1), pow_add 2 (f.bias - 2)]
  exact Nat.div_eq_of_eq_mul_left (by positivity) (by ring)

/-- The largest value below 1 rounds up to 1, whatever the parameters (45_encoders.md R233). -/
theorem encoderResponse_below_one (p : Params) {f : Fmt} {x : BitVec f.N} (hE : f.expOf x = f.bias - 1)
    (hM : f.manOf x = 2 ^ f.W - 1) : (encoderResponse p f x).1 = 8 := by
  obtain ⟨hbias, hlt, -⟩ := f.bias_bounds
  have hfit : ¬ splitInt f x ≥ 2 ^ f.intMagBits p := by rw [ge_iff_le, two_pow_le_splitInt_iff]; omega
  have hone : ¬ 2 ^ f.fracUnits ≤ magnitudeUnits f x := by
    rw [← Nat.zero_add f.fracUnits, two_pow_le_magnitudeUnits_iff]; omega
  have hW : f.W ≠ 0 := by cases f <;> decide
  rw [encoderResponse_eq, if_neg (by omega), if_neg hfit, if_neg hone, fraction_digits_below_one hE hM,
    roundedFraction_all_ones hW]
  exact congrArg Prod.fst (if_pos rfl)

/-- In the order of the codes: the pattern 0, infinity, the largest pattern below 1, and the largest power of 2, whose
integer part takes the whole default width. -/
theorem encoderResponse_writes (p : Params) (f : Fmt) :
    ∀ st ∈ encoderCodes p f, ∃ x : BitVec f.N, (encoderResponse p f x).1 = st := by
  obtain ⟨hbias, hlt, -⟩ := f.bias_bounds
  have hW := Nat.two_pow_pos f.W
  intro st hst
  obtain rfl | rfl | rfl | ⟨rfl, hwidth⟩ := (mem_encoderCodes p f st).mp hst
  · obtain ⟨x, hE, hM⟩ := exists_pattern f (Nat.zero_le _) hW
    have hzero : magnitudeUnits f x = 0 := by rw [magnitudeUnits, if_pos hE, hM]
    refine ⟨x, ?_⟩
    rw [encoderResponse_eq, if_neg (by omega), splitInt, hzero]
    simp [roundedFraction, hW.ne]
  · obtain ⟨x, hE, -⟩ := exists_pattern f le_rfl hW
    exact ⟨x, by rw [encoderResponse_eq, if_pos hE]⟩
  · obtain ⟨x, hE, hM⟩ := exists_pattern f (E := f.bias - 1) (M := 2 ^ f.W - 1) (by omega) (by omega)
    exact ⟨x, encoderResponse_below_one p hE hM⟩
  · obtain ⟨x, hE, -⟩ := exists_pattern f (E := f.emaxField - 1) (by omega) hW
    have hdefault : f.bias + f.intMagBits Params.default = f.emaxField := by cases f <;> rfl
    have hbig : splitInt f x ≥ 2 ^ f.intMagBits p := (two_pow_le_splitInt_iff f x _).mpr (by omega)
    exact ⟨x, by rw [encoderResponse_eq, if_neg (by omega), if_pos hbig]⟩

/-- The count 0, and one past every field. -/
theorem place_expEncodeUnit_writes (f : Fmt) :
    ∀ st ∈ ([0, 10] : List Status), ∃ n : BitVec 16, (place (expEncodeUnit f n)).1 = st := by
  refine List.forall_mem_cons.mpr ⟨⟨0, ?_⟩, List.forall_mem_singleton.mpr ⟨BitVec.allOnes 16, ?_⟩⟩
  all_goals rw [place_expEncodeUnit]
  · rfl
  · cases f <;> rfl

/-- The zero special case, and the exponent -1. -/
theorem magnitudeResponse_writes (f : Fmt) : ∀ st ∈ ([0, 5] : List Status),
    ∃ (M : BitVec f.W) (e : BitVec 16), (magnitudeResponse f M.toNat e.toInt).1 = st := by
  refine List.forall_mem_cons.mpr ⟨⟨0, 0, ?_⟩, List.forall_mem_singleton.mpr ⟨0, -1, ?_⟩⟩
  · simp [magnitudeResponse]
  · simp [magnitudeResponse]

/-- A guard bit of 0, and all ones with guard and round bit 1. -/
theorem roundingResponse_writes (w : Nat) : ∀ st ∈ ([0, 8] : List Status),
    ∃ (bits : BitVec w) (g r low : Bool), (roundingResponse bits g r low).1 = st := by
  refine List.forall_mem_cons.mpr ⟨⟨0, false, false, false, rfl⟩,
    List.forall_mem_singleton.mpr ⟨BitVec.allOnes w, true, true, false, ?_⟩⟩
  simp [roundingResponse]

/-- Settles O14: the operands of each unit's closed form, in each operation of that unit. -/
theorem everyListedCodeIsWritten : Obligations.EveryListedCodeIsWritten := by
  intro p m st hst
  cases m with
  | DEC32 =>
    obtain ⟨x, hx⟩ := decoderResponse_writes .b32 st hst
    exact ⟨.dec32 x, rfl, rfl, fun s _ => ⟨_, dec32Responds.2 x s, hx⟩⟩
  | DEC64 =>
    obtain ⟨x, hx⟩ := decoderResponse_writes .b64 st hst
    exact ⟨.dec64 x, rfl, rfl, fun s _ => ⟨_, dec64Responds.2 x s, hx⟩⟩
  | ENC32 =>
    obtain ⟨x, hx⟩ := encoderResponse_writes p .b32 st (allowedCodes_ENC32 p ▸ hst)
    exact ⟨.enc32 x, rfl, rfl, fun s hcfg => ⟨_, enc32Responds.2 x s, hcfg ▸ hx⟩⟩
  | ENC64 =>
    obtain ⟨x, hx⟩ := encoderResponse_writes p .b64 st (allowedCodes_ENC64 p ▸ hst)
    exact ⟨.enc64 x, rfl, rfl, fun s hcfg => ⟨_, enc64Responds.2 x s, hcfg ▸ hx⟩⟩
  | EXPDEC32 => exact ⟨.expdec32 0, rfl, rfl, fun s _ => ⟨_, rfl, (List.mem_singleton.mp hst).symm⟩⟩
  | EXPDEC64 => exact ⟨.expdec64 0, rfl, rfl, fun s _ => ⟨_, rfl, (List.mem_singleton.mp hst).symm⟩⟩
  | EXPENC32 =>
    obtain ⟨n, hn⟩ := place_expEncodeUnit_writes .b32 st hst
    exact ⟨.expenc32 n, rfl, rfl, fun s _ => ⟨_, rfl, (State.latch_rspStatus s _).trans hn⟩⟩
  | EXPENC64 =>
    obtain ⟨n, hn⟩ := place_expEncodeUnit_writes .b64 st hst
    exact ⟨.expenc64 n, rfl, rfl, fun s _ => ⟨_, rfl, (State.latch_rspStatus s _).trans hn⟩⟩
  | MANDEC32 =>
    obtain ⟨M, e, he⟩ := magnitudeResponse_writes .b32 st hst
    exact ⟨.mandec32 M e, rfl, rfl, fun s _ => ⟨_, mandec32Responds.2 M e s, he⟩⟩
  | MANDEC64 =>
    obtain ⟨M, e, he⟩ := magnitudeResponse_writes .b64 st hst
    exact ⟨.mandec64 M e, rfl, rfl, fun s _ => ⟨_, mandec64Responds.2 M e s, he⟩⟩
  | RND32 =>
    obtain ⟨bits, g, r, low, hup⟩ := roundingResponse_writes 23 st hst
    exact ⟨.rnd32 bits g r low, rfl, rfl, fun s _ => ⟨_, rnd32Responds.2 bits g r low s, hup⟩⟩
  | RND64 =>
    obtain ⟨bits, g, r, low, hup⟩ := roundingResponse_writes 52 st hst
    exact ⟨.rnd64 bits g r low, rfl, rfl, fun s _ => ⟨_, rnd64Responds.2 bits g r low s, hup⟩⟩
  | RESERVED => exact ⟨.reserved 12 0 0, rfl, rfl, fun s _ => ⟨_, rfl, (List.mem_singleton.mp hst).symm⟩⟩

end Sys2Proof.Machine
end

section
/-! Runs over the cycles a host has announced: reset cycles, requests and the idle cycles after them
(70_reset_and_hazards.md R280, R284, R285). -/

namespace Sys2Proof.Machine

/-! ## Runs in parts -/

theorem stepN_succ_of_next {s t : State} (hstep : step s = .next t) (k : Nat) : stepN (k + 1) s = stepN k t := by
  rw [stepN, hstep]

theorem stepN_one_of_next {s t : State} (hstep : step s = .next t) : stepN 1 s = .next t :=
  stepN_succ_of_next hstep 0

/-- A run in two parts: once the first `j` steps have answered a state, the other `k` go on from it. -/
theorem stepN_add_of_next {j : Nat} {s t : State} (hrun : stepN j s = .next t) (k : Nat) :
    stepN (j + k) s = stepN k t := by
  induction j generalizing s with
  | zero =>
    obtain rfl : s = t := Host.Outcome.next.inj hrun
    rw [Nat.zero_add]
  | succ j ih =>
    obtain ⟨u, hstep⟩ := step_completes s
    rw [stepN_succ_of_next hstep] at hrun
    rw [Nat.add_right_comm, stepN_succ_of_next hstep, ih hrun]

/-! ## Runs over announced cycles -/

/-- 10_state.md R35, R37: whatever the signals are, an edge leaves the parameters and the announced cycles as they
were. -/
theorem edge_frame (c : PortCycle) (s : State) : ∃ t : State, edge c s = .next t ∧ t.cfg = s.cfg ∧ t.port = s.port := by
  obtain ⟨-, hedge⟩ | ⟨-, -, hedge⟩ | ⟨-, -, hedge⟩ := edge_cases c s
  · exact ⟨s.clear, hedge, rfl, rfl⟩
  · obtain ⟨t, hexec, -, hcfg, hport⟩ := instructionsWriteOnlyTheResponse (decode c.cmd) s
    exact ⟨t, hedge.trans hexec, hcfg, hport⟩
  · exact ⟨s.idle, hedge, rfl, rfl⟩

/-- Any announced cycles can be run through: they are used up, and the parameters are as before. -/
theorem stepN_announced {s : State} {cycles rest : List PortCycle} (hport : s.port = cycles ++ rest) :
    ∃ t : State, stepN cycles.length s = .next t ∧ t.cfg = s.cfg ∧ t.port = rest := by
  induction cycles generalizing s with
  | nil => exact ⟨s, rfl, rfl, hport⟩
  | cons c cycles ih =>
    obtain ⟨u, hedge, hcfg, hportu⟩ := edge_frame c { s with port := cycles ++ rest }
    obtain ⟨t, hrun, hcfgt, hportt⟩ := ih hportu
    have hstep : step s = .next u := (step_of_port_cons hport).trans hedge
    exact ⟨t, (stepN_succ_of_next hstep _).trans hrun, hcfgt.trans hcfg, hportt⟩

/-- A request's step latches `CORE(op, a, b)` (30_encoding.md R88). -/
theorem step_of_request {s : State} {c : PortCycle} {rest : List PortCycle} (hport : s.port = c :: rest)
    (hrst : c.rst = false) (hreq : c.reqValid = true) :
    step s = .next ({ s with port := rest }.latch (coreFunction s.cfg c.reqOp c.reqA c.reqB)) := by
  rw [step_of_port_cons hport, edge_of_request _ hrst hreq, exec_decode_packCmd]

/-- Idle cycles hold the response; `rsp_valid` survives only the empty list of them (70_reset_and_hazards.md R284). -/
theorem stepN_idles {s : State} {idles rest : List PortCycle} (hidle : ∀ d ∈ idles, d.rst = false ∧ d.reqValid = false)
    (hport : s.port = idles ++ rest) :
    stepN idles.length s = .next { s with rspValid := s.rspValid && idles.isEmpty, port := rest } := by
  induction idles generalizing s with
  | nil => simp [stepN, ← show s.port = rest from hport]
  | cons d idles ih =>
    obtain ⟨⟨hrst, hreq⟩, hidle⟩ := List.forall_mem_cons.mp hidle
    have hstep : step s = .next { s with port := idles ++ rest }.idle :=
      (step_of_port_cons hport).trans (edge_of_idle _ hrst hreq)
    rw [List.length_cons, stepN_succ_of_next hstep, ih hidle rfl]
    simp [State.idle]

/-! ## The obligations -/

/-- Settles O2, by induction on the reset cycles: the first one clears the registers, and the others, if any, clear them
again. -/
theorem resetCyclesClearTheRegisters : Obligations.ResetCyclesClearTheRegisters := by
  intro s resets rest hne hresets hport
  induction resets generalizing s with
  | nil => exact absurd rfl hne
  | cons c resets ih =>
    obtain ⟨hrst, hresets⟩ := List.forall_mem_cons.mp hresets
    have hstep : step s = .next { s with port := resets ++ rest }.clear :=
      (step_of_port_cons hport).trans (edge_of_rst _ hrst)
    rw [List.length_cons, stepN_succ_of_next hstep]
    cases resets with
    | nil => rfl
    | cons d resets => exact ih _ (List.cons_ne_nil d resets) hresets rfl

/-- Settles O6: the cycles before keep the parameters, the request latches its response, the idle cycles hold it. -/
theorem responseHeldUntilOverwritten : Obligations.ResponseHeldUntilOverwritten := by
  intro s before idles rest c hrst hreq hidle hport
  obtain ⟨u, hbefore, hcfg, hportu⟩ := stepN_announced hport
  have hrequest := step_of_request hportu hrst hreq
  rw [Nat.add_assoc, stepN_add_of_next hbefore, Nat.add_comm 1, stepN_succ_of_next hrequest, stepN_idles hidle rfl]
  exact ⟨_, rfl, by rw [← hcfg]; rfl, Bool.true_and _, hcfg, rfl⟩

/-- Settles O7: LATENCY is one step, and that step runs the instruction the request's word decodes to. -/
theorem responseComesAfterLatency : Obligations.ResponseComesAfterLatency := by
  intro s i rest hwf hport
  obtain ⟨t, hexec, hvalid, -⟩ := instructionsWriteOnlyTheResponse i { s with port := rest }
  have hdecode : decode (PortCycle.request (encode i)).cmd = i := by rw [PortCycle.cmd_request, decodeOfEncode i hwf]
  have hstep := stepRunsTheDecodedInstruction s _ rest i hport rfl rfl hdecode
  exact ⟨t, stepN_one_of_next (hstep.trans hexec), hexec, hvalid⟩

end Sys2Proof.Machine
end
